-- ==== Sys2Proof/Word.lean ====
section
/-! DEFINITION. The word types of the CHIP-8 core (R5, R8): every quantity is an unsigned bit field of a fixed width. -/

namespace Sys2Proof

/-- `VLEN`: a general register, the delay timer, a memory cell, an immediate `kk` (R5). -/
abbrev Byte := BitVec 8

/-- `ILEN`, `PCLEN`, `STACK_WIDTH`, `ILEN_INSN`: I, PC, a stack entry, an instruction word (R5). -/
abbrev Word := BitVec 16

/-- A 4-bit field of an instruction word (R71). -/
abbrev Nibble := BitVec 4

/-- The 12-bit address field `nnn` (R71). -/
abbrev Addr := BitVec 12

/-- A general register's number, 0 to 15: every value names a real register (R11). -/
abbrev Reg := Fin 16

/-- VF, register 15 (R12). -/
abbrev regVF : Reg := 15

end Sys2Proof
end

