-- ==== Sys2Proof/Config.lean ====
section
/-! DEFINITION. The parameters of this hardware (R5) and the one free value of the model: the key levels the
environment presents (R133, D20). The parameter `FONT`, whose bytes the source does not give, is in
`Machine/Font.lean`. -/

namespace Sys2Proof.Config

/-- `MEM_SIZE`: addresses 0x000 to 0xFFF (R5, R40). -/
abbrev memSize : Nat := 4096

/-- `FONT_SIZE`: 16 glyphs of 5 bytes, at `FONT_BASE` = 0 (R5, R41). -/
abbrev fontSize : Nat := 80

/-- `GLYPH_BYTES` (R5, R115). -/
abbrev glyphBytes : Nat := 5

/-- `ROM_BASE`, which is also `RESET_PC` (R5, R25). -/
abbrev romBase : Nat := 0x200

/-- `ROM_MAX`, the longest ROM that fits (R5, R51). -/
abbrev romMax : Nat := memSize - romBase

/-- `STACK_DEPTH` (R5, R17). -/
abbrev stackDepth : Nat := 16

/-- `FB_W`, columns of the framebuffer (R5, R19). -/
abbrev fbWidth : Nat := 64

/-- `FB_H`, rows of the framebuffer (R5, R19). -/
abbrev fbHeight : Nat := 32

/-- `SPRITE_W`, one byte per sprite row (R5, R121). -/
abbrev spriteWidth : Nat := 8

/-- `NKEYS`, the logical keys 0 to 15 (R5, R133). -/
abbrev keyCount : Nat := 16

/-- FREE VALUE (log entry 2): the sixteen key levels that the `n`-th execution of SKNP samples, bit `k` for key `k`,
when the state lists no levels for it. "a free input of each step, chosen by the environment, under no law" (R133). It has
no body, so nothing can be proved of its value. -/
opaque freeKeyLevels : Nat → BitVec 16

end Sys2Proof.Config
end

