-- ==== Sys2Proof/Syntax.lean ====
section
/-! DEFINITION. The twenty instructions (R2, R75), one constructor per row of `spec/opcode_table.json`, each with the
operand fields of its format (R72, R73) already bound; and the names under which the decoder rejects bytes. -/

namespace Sys2Proof

/-- An instruction, in the order of the opcode map (R75). A field's type is its width, so no operand value is illegal
(R11, R73). -/
inductive Instr where
  | cls
  | ret
  | jpAddr (nnn : Addr)
  | callAddr (nnn : Addr)
  | seVxKk (x : Reg) (kk : Byte)
  | sneVxKk (x : Reg) (kk : Byte)
  | seVxVy (x y : Reg)
  | ldVxKk (x : Reg) (kk : Byte)
  | addVxKk (x : Reg) (kk : Byte)
  | ldVxVy (x y : Reg)
  | sneVxVy (x y : Reg)
  | ldIAddr (nnn : Addr)
  | drwVxVyN (x y : Reg) (n : Nibble)
  | sknpVx (x : Reg)
  | ldVxDt (x : Reg)
  | ldDtVx (x : Reg)
  | addIVx (x : Reg)
  | ldFVx (x : Reg)
  | ldBVx (x : Reg)
  | ldVxI (x : Reg)
  deriving DecidableEq, Repr

/-- Why bytes are no instruction. -/
inductive DecodeError where
  /-- Fewer than two bytes: every instruction is one 16-bit word (R70). -/
  | truncated
  /-- The word matches no row of the opcode map (R76). -/
  | illegal (word : Word)
  deriving DecidableEq, Repr

end Sys2Proof
end

