-- ==== Sys2Proof/WellFormed.lean ====
section
/-! DEFINITION. The checks on what is offered to the core. An `Instr` needs none: a field's type is its width and every
value of it is legal (R11, R73). What can be ill-formed is an instruction WORD, held here against the opcode map written as
rows of match and mask (R75), and a ROM, which must fit (R51). -/

namespace Sys2Proof

/-- One row of the opcode map: the word `w` matches it when `(w AND mask) = pattern` (R74). -/
structure OpcodeRow where
  mnemonic : String
  pattern : Word
  mask : Word
  deriving DecidableEq, Repr

/-- `w` matches the row (R74). -/
def OpcodeRow.matchesWord (r : OpcodeRow) (w : Word) : Bool := w &&& r.mask == r.pattern

/-- Rows 1 to 10 of the opcode map (R75). -/
def opcodeRowsLow : List OpcodeRow :=
  [⟨"CLS", 0x00E0, 0xFFFF⟩, ⟨"RET", 0x00EE, 0xFFFF⟩, ⟨"JP_addr", 0x1000, 0xF000⟩, ⟨"CALL_addr", 0x2000, 0xF000⟩,
   ⟨"SE_Vx_kk", 0x3000, 0xF000⟩, ⟨"SNE_Vx_kk", 0x4000, 0xF000⟩, ⟨"SE_Vx_Vy", 0x5000, 0xF00F⟩,
   ⟨"LD_Vx_kk", 0x6000, 0xF000⟩, ⟨"ADD_Vx_kk", 0x7000, 0xF000⟩, ⟨"LD_Vx_Vy", 0x8000, 0xF00F⟩]

/-- Rows 11 to 20 of the opcode map (R75). -/
def opcodeRowsHigh : List OpcodeRow :=
  [⟨"SNE_Vx_Vy", 0x9000, 0xF00F⟩, ⟨"LD_I_addr", 0xA000, 0xF000⟩, ⟨"DRW_Vx_Vy_n", 0xD000, 0xF000⟩,
   ⟨"SKNP_Vx", 0xE0A1, 0xF0FF⟩, ⟨"LD_Vx_DT", 0xF007, 0xF0FF⟩, ⟨"LD_DT_Vx", 0xF015, 0xF0FF⟩,
   ⟨"ADD_I_Vx", 0xF01E, 0xF0FF⟩, ⟨"LD_F_Vx", 0xF029, 0xF0FF⟩, ⟨"LD_B_Vx", 0xF033, 0xF0FF⟩,
   ⟨"LD_Vx__I", 0xF065, 0xF0FF⟩]

/-- The opcode map (R75). -/
def opcodeRows : List OpcodeRow := opcodeRowsLow ++ opcodeRowsHigh

/-- The word is some instruction (R74, R76). -/
def wellFormedWord (w : Word) : Bool := opcodeRows.any fun r => r.matchesWord w

/-- The ROM fits: L <= 3584 (R51). The loader checks nothing else, an odd length and a length of 0 included (R50). -/
def wellFormedRom (rom : List Byte) : Bool := decide (rom.length ≤ Config.romMax)

/-- The place in the opcode map (R75), from 0, of the row that an instruction belongs to. -/
def Instr.rowIndex : Instr → Nat
  | .cls => 0
  | .ret => 1
  | .jpAddr _ => 2
  | .callAddr _ => 3
  | .seVxKk _ _ => 4
  | .sneVxKk _ _ => 5
  | .seVxVy _ _ => 6
  | .ldVxKk _ _ => 7
  | .addVxKk _ _ => 8
  | .ldVxVy _ _ => 9
  | .sneVxVy _ _ => 10
  | .ldIAddr _ => 11
  | .drwVxVyN _ _ _ => 12
  | .sknpVx _ => 13
  | .ldVxDt _ => 14
  | .ldDtVx _ => 15
  | .addIVx _ => 16
  | .ldFVx _ => 17
  | .ldBVx _ => 18
  | .ldVxI _ => 19

end Sys2Proof
end

