-- ==== Sys2Proof/Decode.lean ====
section
/-! DEFINITION. The decoder (R71 to R79), total on any bytes and rejecting by name; after it the encoder, written from the
same encoding tables, and the spec's assembly spelling of an instruction (R80, R82). -/

namespace Sys2Proof

/-! ## The fields of a word (R71) -/

/-- `op`, `w[15:12]`. -/
def fieldOp (w : Word) : Nibble := w.extractLsb' 12 4

/-- `x`, `w[11:8]`. -/
def fieldX (w : Word) : Reg := (w.extractLsb' 8 4).toFin

/-- `y`, `w[7:4]`. -/
def fieldY (w : Word) : Reg := (w.extractLsb' 4 4).toFin

/-- `n`, `w[3:0]`. -/
def fieldN (w : Word) : Nibble := w.extractLsb' 0 4

/-- `kk`, `w[7:0]`. -/
def fieldKk (w : Word) : Byte := w.extractLsb' 0 8

/-- `nnn`, `w[11:0]`. -/
def fieldNnn (w : Word) : Addr := w.extractLsb' 0 12

/-! ## Bytes and words -/

/-- A word from its two bytes, the first being the high byte (R45, R70). -/
def wordBE (hi lo : Byte) : Word := hi ++ lo

/-- A word's two bytes as memory holds them, high byte first (R45, R70). -/
def bytesBE (w : Word) : List Byte := [w.extractLsb' 8 8, w.extractLsb' 0 8]

/-! ## Decoding (R74, R75) -/

/-- Class 0: two words only (R75 rows 1 and 2, R76). -/
def decodeClass0 (w : Word) : Except DecodeError Instr :=
  if w = 0x00E0 then .ok .cls
  else if w = 0x00EE then .ok .ret
  else .error (.illegal w)

/-- Format XY0: the low nibble must be 0 (R72, R76). -/
def decodeXY0 (mk : Reg → Reg → Instr) (w : Word) : Except DecodeError Instr :=
  if fieldN w = 0 then .ok (mk (fieldX w) (fieldY w)) else .error (.illegal w)

/-- Class E: SKNP only (R75 row 14, R76). -/
def decodeClassE (w : Word) : Except DecodeError Instr :=
  if fieldKk w = 0xA1 then .ok (.sknpVx (fieldX w)) else .error (.illegal w)

/-- Class F: six low bytes (R75 rows 15 to 20, R76). -/
def decodeClassF (w : Word) : Except DecodeError Instr :=
  if fieldKk w = 0x07 then .ok (.ldVxDt (fieldX w))
  else if fieldKk w = 0x15 then .ok (.ldDtVx (fieldX w))
  else if fieldKk w = 0x1E then .ok (.addIVx (fieldX w))
  else if fieldKk w = 0x29 then .ok (.ldFVx (fieldX w))
  else if fieldKk w = 0x33 then .ok (.ldBVx (fieldX w))
  else if fieldKk w = 0x65 then .ok (.ldVxI (fieldX w))
  else .error (.illegal w)

/-- `Decode(w)` (R74): the one row of the opcode map that `w` matches, with its operand fields, or the rejection. It reads
nothing but `w`. -/
def decodeWord (w : Word) : Except DecodeError Instr :=
  match fieldOp w with
  | 0x0#4 => decodeClass0 w
  | 0x1#4 => .ok (.jpAddr (fieldNnn w))
  | 0x2#4 => .ok (.callAddr (fieldNnn w))
  | 0x3#4 => .ok (.seVxKk (fieldX w) (fieldKk w))
  | 0x4#4 => .ok (.sneVxKk (fieldX w) (fieldKk w))
  | 0x5#4 => decodeXY0 .seVxVy w
  | 0x6#4 => .ok (.ldVxKk (fieldX w) (fieldKk w))
  | 0x7#4 => .ok (.addVxKk (fieldX w) (fieldKk w))
  | 0x8#4 => decodeXY0 .ldVxVy w
  | 0x9#4 => decodeXY0 .sneVxVy w
  | 0xA#4 => .ok (.ldIAddr (fieldNnn w))
  | 0xD#4 => .ok (.drwVxVyN (fieldX w) (fieldY w) (fieldN w))
  | 0xE#4 => decodeClassE w
  | 0xF#4 => decodeClassF w
  | _ => .error (.illegal w)  -- classes B and C (R76)

/-- Decoding a byte string: the instruction at its start and the bytes after it (R70, R79). -/
def decodeBytes : List Byte → Except DecodeError (Instr × List Byte)
  | hi :: lo :: rest => (decodeWord (wordBE hi lo)).map fun i => (i, rest)
  | _ => .error .truncated

/-- The instruction word that the host's pair `nbits`, `w` stands for: every bit above `nbits` is 0. -/
def tableWord (nbits w : Nat) : Word := BitVec.ofNat 16 (w % 2 ^ nbits)

/-- The instruction this decoder reads from an opcode-table word, laid out in memory order. -/
def decodeTableWord (nbits w : Nat) : Option Instr :=
  match decodeBytes (bytesBE (tableWord nbits w)) with
  | .ok (i, _) => some i
  | .error _ => none

/-! ## Encoding (R72, R75) -/

/-- A register number as the 4-bit field that names it (R71). -/
def regField (x : Reg) : Nibble := BitVec.ofFin x

/-- Format NNN (R72). -/
def formatNNN (op : Nibble) (nnn : Addr) : Word := op ++ nnn

/-- Formats XKK and XSS (R72). -/
def formatXKK (op : Nibble) (x : Reg) (kk : Byte) : Word := op ++ regField x ++ kk

/-- Formats XYN and XY0 (R72). -/
def formatXYN (op : Nibble) (x y : Reg) (n : Nibble) : Word := op ++ regField x ++ regField y ++ n

/-- The word of an instruction (R72, R75). -/
def encode : Instr → Word
  | .cls => 0x00E0
  | .ret => 0x00EE
  | .jpAddr nnn => formatNNN 0x1 nnn
  | .callAddr nnn => formatNNN 0x2 nnn
  | .seVxKk x kk => formatXKK 0x3 x kk
  | .sneVxKk x kk => formatXKK 0x4 x kk
  | .seVxVy x y => formatXYN 0x5 x y 0x0
  | .ldVxKk x kk => formatXKK 0x6 x kk
  | .addVxKk x kk => formatXKK 0x7 x kk
  | .ldVxVy x y => formatXYN 0x8 x y 0x0
  | .sneVxVy x y => formatXYN 0x9 x y 0x0
  | .ldIAddr nnn => formatNNN 0xA nnn
  | .drwVxVyN x y n => formatXYN 0xD x y n
  | .sknpVx x => formatXKK 0xE x 0xA1
  | .ldVxDt x => formatXKK 0xF x 0x07
  | .ldDtVx x => formatXKK 0xF x 0x15
  | .addIVx x => formatXKK 0xF x 0x1E
  | .ldFVx x => formatXKK 0xF x 0x29
  | .ldBVx x => formatXKK 0xF x 0x33
  | .ldVxI x => formatXKK 0xF x 0x65

/-! ## Assembly spelling (R80) -/

/-- One upper-case hexadecimal digit. -/
def hexDigit (d : Nat) : String := String.singleton (Nat.digitChar (d % 16)).toUpper

/-- `V0` to `VF` (R80). -/
def asmReg (x : Reg) : String := "V" ++ hexDigit x.val

/-- A byte as `0x` and two digits (R80). -/
def asmByte (kk : Byte) : String := "0x" ++ hexDigit (kk.toNat / 16) ++ hexDigit kk.toNat

/-- A 12-bit address as `0x` and three digits (R80). -/
def asmAddr (nnn : Addr) : String :=
  "0x" ++ hexDigit (nnn.toNat / 256) ++ hexDigit (nnn.toNat / 16) ++ hexDigit nnn.toNat

/-- The assembly line of an instruction (R80, R82). -/
def disassemble : Instr → String
  | .cls => "CLS"
  | .ret => "RET"
  | .jpAddr nnn => "JP " ++ asmAddr nnn
  | .callAddr nnn => "CALL " ++ asmAddr nnn
  | .seVxKk x kk => "SE " ++ asmReg x ++ "," ++ asmByte kk
  | .sneVxKk x kk => "SNE " ++ asmReg x ++ "," ++ asmByte kk
  | .seVxVy x y => "SE " ++ asmReg x ++ "," ++ asmReg y
  | .ldVxKk x kk => "LD " ++ asmReg x ++ "," ++ asmByte kk
  | .addVxKk x kk => "ADD " ++ asmReg x ++ "," ++ asmByte kk
  | .ldVxVy x y => "LD " ++ asmReg x ++ "," ++ asmReg y
  | .sneVxVy x y => "SNE " ++ asmReg x ++ "," ++ asmReg y
  | .ldIAddr nnn => "LD I," ++ asmAddr nnn
  | .drwVxVyN x y n => "DRW " ++ asmReg x ++ "," ++ asmReg y ++ "," ++ Nat.repr n.toNat
  | .sknpVx x => "SKNP " ++ asmReg x
  | .ldVxDt x => "LD " ++ asmReg x ++ ",DT"
  | .ldDtVx x => "LD DT," ++ asmReg x
  | .addIVx x => "ADD I," ++ asmReg x
  | .ldFVx x => "LD F," ++ asmReg x
  | .ldBVx x => "LD B," ++ asmReg x
  | .ldVxI x => "LD " ++ asmReg x ++ ",[I]"

end Sys2Proof
end

