-- ==== Sys2Proof/Machine/State.lean ====
section
/-! DEFINITION. The state of the core: the nine items of R10, and four fields of the model's own that stand for what crosses
the core's boundary (R189): the key levels coming in and the `Refresh` events going out. Then the state after reset (R25)
and the reasons for which a step can stop without a next state. -/

namespace Sys2Proof.Machine

/-- `MEM` (R18, R40): the bytes that differ from the reset contents, in the canonical form of `Memory.wf`. -/
abbrev Memory := List Host.Cell

/-- `FB` (R19): 32 rows, row 0 first; bit `cx` of a row is the pixel of column `cx`, 1 for on. So `FB[cy*64 + cx]` is bit
`cx` of row `cy`. -/
abbrev Framebuffer := Vector (BitVec 64) 32

/-- The record a fault leaves in the latch (R157). -/
inductive FaultRecord where
  /-- Code 1, phase 2: the fetched word matches no pattern (R151). -/
  | invalidOpcode (pc word : Word)
  /-- Code 2, phase 1, phase 3 or `Load`: an access of `n` bytes at `addr` leaves [0, 4096) (R152). -/
  | addressError (pc addr : Word) (n : Nat)
  /-- Code 3, phase 3: CALL with SP = 16 (R153). -/
  | stackOverflow (pc word : Word)
  /-- Code 4, phase 3: RET with SP = 0 (R154). -/
  | stackUnderflow (pc word : Word)
  /-- Code 5, phase 3: SKNP with a key number above 15 (R155). -/
  | keyIndexError (pc word : Word) (k : Byte)
  deriving DecidableEq, Repr

/-- The state of the core (R10) and the model's own boundary fields. -/
structure State where
  /-- `V[0]` to `V[15]` (R11); `V[15]` is VF (R12). -/
  v : Vector Byte 16
  /-- `I`, the address register: all 16 bits are kept (R13). -/
  i : Word
  /-- `DT`, the delay timer (R14, R165). -/
  dt : Byte
  /-- `PC` (R15). -/
  pc : Word
  /-- `SP`, the number of frames on the call stack (R16). -/
  sp : Byte
  /-- `STACK[0]` to `STACK[15]` (R17). -/
  stack : Vector Word 16
  /-- `MEM` (R18). -/
  mem : Memory
  /-- `FB` (R19). -/
  fb : Framebuffer
  /-- `FAULT` (R20): no fault, or the record of the fault that stopped the core. -/
  fault : Option FaultRecord
  /-- Model's own (log entry 2): key levels the environment presents to the coming executions of SKNP, the next one first,
  bit `k` for key `k`. When it is empty the levels are the free value `Config.freeKeyLevels`. -/
  keyInput : List (BitVec 16)
  /-- Model's own (log entry 2): how many times SKNP has sampled the keys; it picks the free value. -/
  keySamples : Nat
  /-- Model's own (log entry 3): how many `Refresh` events the core has emitted (R95). -/
  refreshCount : Nat
  /-- Model's own (log entry 3): the grid the latest `Refresh` carried (R95, R160); none before the first. -/
  refreshFrame : Option Framebuffer
  deriving DecidableEq, Repr

/-- A step's reasons to stop with no next state. The five faults of the hardware are NOT here: raising one is a next state
with the latch set (R160). -/
inductive Fault where
  /-- Raised by CALL and RET when SP is 17 to 255, where the spec gives the stack no entry. No run reaches such an SP (R16),
  so the stop is SAFE (log entry 4). -/
  | stackPointerOutOfRange
  deriving DecidableEq, Repr

/-- A step's reasons to give no meaning. -/
inductive Refusal where
  /-- Raised by an arm of `exec` whose instruction has no meaning yet; no arm raises it in this model. SAFE. -/
  | notModelled (mnemonic : String)
  deriving DecidableEq, Repr

/-- The outcome of a step or of an instruction. -/
abbrev Result := Host.Outcome State Fault Refusal

/-- The state right after reset with no ROM loaded (R25): memory holds the font and zeros, which is what nothing listed reads
as, and no `Refresh` has been emitted. Values of V, I, DT, SP, STACK: log entry 1. -/
def State.reset : State where
  v := Vector.replicate 16 0
  i := 0
  dt := 0
  pc := 0x200
  sp := 0
  stack := Vector.replicate 16 0
  mem := []
  fb := Vector.replicate 32 0
  fault := none
  keyInput := []
  keySamples := 0
  refreshCount := 0
  refreshFrame := none

end Sys2Proof.Machine
end

