-- ==== Sys2Proof/Machine/Flags.lean ====
section
/-! DEFINITION. The flag computations. The hardware has no flag register; its one flag is VF, written as a flag by DRW
alone, and no instruction produces a carry, a borrow or an overflow (R12, R116). -/

namespace Sys2Proof.Machine

/-- A sprite bit and the pixel under it collide when both are 1: the XOR turns a lit pixel off (R121). -/
def pixelCollides (sprite old : Bool) : Bool := sprite && old

/-- "VF=1 if collision else 0": the full 8-bit value written to VF (R12, R123). -/
def collisionFlag (collision : Bool) : Byte := if collision then 0x01 else 0x00

end Sys2Proof.Machine
end

