-- ==== Sys2Proof/Machine/Operands.lean ====
section
/-! DEFINITION. The operand forms (R73, R142): registers, immediates used as they stand, and the one addressing mode,
register-indirect through I. -/

namespace Sys2Proof.Machine

/-- `V[x]` as an operand (R11). -/
def State.readV (s : State) (x : Reg) : Byte := s.v[x]

/-- `V[x] <- b` (R11): every register is writable, VF included. -/
def State.writeV (s : State) (x : Reg) (b : Byte) : State := { s with v := s.v.set x b }

/-- `zext_16(nnn)`: an absolute target or address (R73). -/
def addrOperand (nnn : Addr) : Word := nnn.setWidth 16

/-- `zext_16(V[x])` (R114, R115). -/
def byteOperand (b : Byte) : Word := b.setWidth 16

/-- The row count `n` of DRW (R73, R123). -/
def rowCount (n : Nibble) : Nat := n.toNat

/-- How many registers `LD Vx,[I]` loads: V0 to Vx inclusive (R141). -/
def loadCount (x : Reg) : Nat := x.val + 1

/-- `for r in 0 .. x: V[r] <- b[r]` (R141): register `r` takes byte `r` of the list, registers past its end are untouched. -/
def State.loadV (s : State) (bytes : List Byte) : State :=
  { s with v := Vector.ofFn fun r : Fin 16 => bytes[r.val]?.getD s.v[r] }

/-- `[v div 100, (v div 10) mod 10, v mod 10]` (R140). -/
def bcdDigits (b : Byte) : List Byte := [b / 100, b / 10 % 10, b % 10]

end Sys2Proof.Machine
end

