-- ==== Sys2Proof/Machine/Ops.lean ====
section
/-! DEFINITION. The shared operations: memory with its address check (R40 to R45), raising a fault (R160), what an
instruction does to PC (R93, R99), the call stack (R16, R17), the key input (R133), the fetch (R91), the end of a cycle
(R94, R95), and reset with its loader (R50, R180), the only way out of a fault (R162). -/

namespace Sys2Proof.Machine

/-! ## Memory as data -/

/-- What an unlisted address reads as: the reset contents, the font in [0, 80) and zero elsewhere (R25, R41). -/
def Memory.initial (a : Nat) : Byte := if h : a < Config.fontSize then defaultFont[a] else 0

/-- `MEM[a]`. -/
def Memory.read : Memory → Nat → Byte
  | [], a => Memory.initial a
  | (k, b) :: rest, a => if k = a then b else Memory.read rest a

/-- An entry at the head, unless it says what an unlisted address says. -/
def Memory.consCell (a : Nat) (b : Byte) (rest : Memory) : Memory :=
  if b = Memory.initial a then rest else (a, b) :: rest

/-- `MEM[a] <- b`, keeping the canonical form. -/
def Memory.write : Memory → Nat → Byte → Memory
  | [], a, b => Memory.consCell a b []
  | (k, c) :: rest, a, b =>
    if a < k then Memory.consCell a b ((k, c) :: rest)
    else if a = k then Memory.consCell a b rest
    else (k, c) :: Memory.write rest a b

/-- The canonical form: addresses strictly rising and inside the memory, no entry equal to what an unlisted address reads
as. -/
abbrev Memory.wf (m : Memory) : Prop :=
  m.Pairwise (fun c d => c.1 < d.1) ∧ ∀ c ∈ m, c.1 < Config.memSize ∧ c.2 ≠ Memory.initial c.1

/-- `[MEM[a], ..., MEM[a+n-1]]`, lowest address first (R43). -/
def Memory.readBytes (m : Memory) (a n : Nat) : List Byte := (List.range n).map fun k => m.read (a + k)

/-- `MEM[a + k] <- bytes[k]` for every `k` (R44). -/
def Memory.writeBytes (m : Memory) (a : Nat) : List Byte → Memory
  | [] => m
  | b :: bytes => Memory.writeBytes (m.write a b) (a + 1) bytes

/-! ## The address check and the checked accesses -/

/-- An access of `n` bytes at `a` is valid: `n = 0`, or `a + n <= 4096` on unbounded integers (R42). -/
def accessOk (a n : Nat) : Bool := decide (n = 0 ∨ a + n ≤ Config.memSize)

/-- `MemRead(addr, n)` (R43): the bytes, or the record of the `AddressError` it raises. -/
def State.memRead (s : State) (addr : Word) (n : Nat) : Except FaultRecord (List Byte) :=
  if accessOk addr.toNat n then .ok (s.mem.readBytes addr.toNat n) else .error (.addressError s.pc addr n)

/-- `MemWrite(addr, n, bytes)` (R44): the memory afterwards, or the record of the `AddressError` it raises. -/
def State.memWrite (s : State) (addr : Word) (bytes : List Byte) : Except FaultRecord Memory :=
  if accessOk addr.toNat bytes.length then .ok (s.mem.writeBytes addr.toNat bytes)
  else .error (.addressError s.pc addr bytes.length)

/-- `MemReadWordBE(addr)` (R45): the byte at the lower address is the high byte. -/
def State.memReadWordBE (s : State) (addr : Word) : Except FaultRecord Word :=
  (s.memRead addr 2).map fun bytes => wordBE (bytes.getD 0 0) (bytes.getD 1 0)

/-! ## Raising a fault -/

/-- `raise` (R96, R160, R161): the latch takes the record and nothing else changes. There is no vector, no saved state and
no mode, and no return (R162): the core stays where it is until `State.applyReset`. -/
def State.raise (s : State) (r : FaultRecord) : Result := .next { s with fault := some r }

/-- Go on with a checked access's result, or raise the fault it met. -/
def State.orRaise {α : Type} (s : State) (access : Except FaultRecord α) (go : α → Result) : Result :=
  match access with
  | .ok a => go a
  | .error r => s.raise r

/-- The code of a record, 0 for no fault (R157). -/
def faultCode : Option FaultRecord → Nat
  | none => 0
  | some (.invalidOpcode _ _) => 1
  | some (.addressError _ _ _) => 2
  | some (.stackOverflow _ _) => 3
  | some (.stackUnderflow _ _) => 4
  | some (.keyIndexError _ _ _) => 5

/-! ## PC -/

/-- `NEXT = (PC + 2) mod 65536`, PC being the address the instruction was fetched from (R93). -/
def State.nextPc (s : State) : Word := s.pc + 2

/-- `(PC + 4) mod 65536`, a taken skip (R99). -/
def State.skipPc (s : State) : Word := s.pc + 4

/-- `pc <- target`. -/
def State.setPc (s : State) (target : Word) : State := { s with pc := target }

/-- `pc <- NEXT`, the last action of a sequential instruction: `before` is the state the instruction began in. -/
def State.advance (s before : State) : Result := .next (s.setPc before.nextPc)

/-- `if c then pc <- (PC + 4) mod 65536 else pc <- NEXT` (R103). -/
def State.skipIf (s : State) (c : Bool) : Result := .next (s.setPc (if c then s.skipPc else s.nextPc))

/-! ## The call stack -/

/-- `STACK[SP] <- NEXT ; SP <- SP + 1` for a free entry `k` = SP (R102). -/
def State.push (s : State) (k : Fin 16) : State :=
  { s with stack := s.stack.set k s.nextPc, sp := s.sp + 1 }

/-- `SP <- SP - 1 ; pc <- STACK[SP]` with `k` the new SP (R100). -/
def State.pop (s : State) (k : Fin 16) : State := { s with sp := s.sp - 1, pc := s.stack[k] }

/-! ## The key input -/

/-- The sixteen levels that this sample of the keys sees (R133): those the environment lists, or the free value. -/
def State.keyLevels (s : State) : BitVec 16 :=
  match s.keyInput with
  | [] => Config.freeKeyLevels s.keySamples
  | levels :: _ => levels

/-- `KeyDown(k)` (R133). -/
def State.keyDown (s : State) (k : Byte) : Bool := s.keyLevels.getLsbD k.toNat

/-- The environment moves on to the next sample: two samples may see different levels (R133). -/
def State.nextSample (s : State) : State :=
  { s with keyInput := s.keyInput.tail, keySamples := s.keySamples + 1 }

/-! ## The cycle around an instruction -/

/-- Phase 1 (R91). -/
def State.fetch (s : State) : Except FaultRecord Word := s.memReadWordBE s.pc

/-- DT after one decay: down by one while above zero (R94). -/
def decayed (dt : Byte) : Byte := if dt = 0 then 0 else dt - 1

/-- Phase 4 (R94). -/
def State.decay (s : State) : State := { s with dt := decayed s.dt }

/-- Phase 5 (R95): one `Refresh` event with the whole framebuffer as it now stands. -/
def State.emitRefresh (s : State) : State :=
  { s with refreshCount := s.refreshCount + 1, refreshFrame := some s.fb }

/-- Phases 4 and 5, which a step that raised does not reach (R90, R96). -/
def State.endCycle (s : State) : State := if s.fault.isSome then s else s.decay.emitRefresh

/-- The end of a step after phase 3. -/
def endStep : Result → Result
  | .next s => .next s.endCycle
  | .fault r => .fault r
  | .refused r => .refused r

/-! ## Reset -/

/-- A memory of zeros, the font area included (R180 step 1). -/
def Memory.blank : Memory := Memory.writeBytes [] 0 (List.replicate Config.fontSize 0)

/-- R180 step 1: the nine items of the core cleared and PC at 0x0200. The environment's key levels and the count and frame
of the events already emitted are not the core's and stay. -/
def State.cleared (s : State) : State where
  v := Vector.replicate 16 0
  i := 0
  dt := 0
  pc := 0x200
  sp := 0
  stack := Vector.replicate 16 0
  mem := Memory.blank
  fb := Vector.replicate 32 0
  fault := none
  keyInput := s.keyInput
  keySamples := s.keySamples
  refreshCount := s.refreshCount
  refreshFrame := s.refreshFrame

/-- `MemWrite(0, 80, FONT)`, the loader's first half (R50). -/
def State.loadFont (font : Vector Byte Config.fontSize) (s : State) : State :=
  { s with mem := s.mem.writeBytes 0 font.toList }

/-- `MemWrite(0x200, L, rom)`, the loader's second half (R50); a ROM that does not fit is refused whole and leaves the core
faulted (R51). -/
def State.loadRom (rom : List Byte) (s : State) : State :=
  match s.memWrite 0x200 rom with
  | .ok m => { s with mem := m }
  | .error r => { s with fault := some r }

/-- `Reset(rom)` with the parameter `FONT` (R180): the host's move, from any state, the faulted one included. -/
def State.applyReset (font : Vector Byte Config.fontSize) (rom : List Byte) (s : State) : State :=
  (s.cleared.loadFont font).loadRom rom

end Sys2Proof.Machine
end

