-- ==== Sys2Proof/Machine/ControlFlow.lean ====
section
/-! DEFINITION. The control-transfer instructions (R100 to R107). -/

namespace Sys2Proof.Machine

/-- RET (R100): `StackUnderflow` on an empty stack, checked first. SP above 16 has no entry to pop: log entry 4. -/
def execRet (s : State) : Result :=
  if s.sp = 0 then s.raise (.stackUnderflow s.pc (encode .ret))
  else if h : s.sp.toNat - 1 < 16 then .next (s.pop ⟨s.sp.toNat - 1, h⟩)
  else .fault .stackPointerOutOfRange

/-- JP addr (R101). -/
def execJpAddr (nnn : Addr) (s : State) : Result := .next (s.setPc (addrOperand nnn))

/-- CALL addr (R102): `StackOverflow` on a full stack, checked first. SP above 16 has no entry to write: log entry 4. -/
def execCallAddr (nnn : Addr) (s : State) : Result :=
  if s.sp = 16 then s.raise (.stackOverflow s.pc (encode (.callAddr nnn)))
  else if h : s.sp.toNat < 16 then .next ((s.push ⟨s.sp.toNat, h⟩).setPc (addrOperand nnn))
  else .fault .stackPointerOutOfRange

/-- SE Vx,kk (R103). -/
def execSeVxKk (x : Reg) (kk : Byte) (s : State) : Result := s.skipIf (s.readV x == kk)

/-- SNE Vx,kk (R104). -/
def execSneVxKk (x : Reg) (kk : Byte) (s : State) : Result := s.skipIf (s.readV x != kk)

/-- SE Vx,Vy (R105). -/
def execSeVxVy (x y : Reg) (s : State) : Result := s.skipIf (s.readV x == s.readV y)

/-- SNE Vx,Vy (R106). -/
def execSneVxVy (x y : Reg) (s : State) : Result := s.skipIf (s.readV x != s.readV y)

end Sys2Proof.Machine
end

