-- ==== Sys2Proof/Machine/Framebuffer.lean ====
section
/-! DEFINITION. The framebuffer (R19) and the blitter primitives `FbClear` (R120) and `DrawSprite` (R121). -/

namespace Sys2Proof.Machine

/-- A column of the torus: the coordinate modulo 64 (R121). -/
def wrapColumn (a : Nat) : Fin 64 := Fin.ofNat 64 a

/-- A row of the torus: the coordinate modulo 32 (R121). -/
def wrapRow (a : Nat) : Fin 32 := Fin.ofNat 32 a

/-- The pixel at column `cx`, row `cy` (R19). -/
def pixel (fb : Framebuffer) (cx : Fin 64) (cy : Fin 32) : Bool := fb[cy].getLsbD cx

/-- `FB[p]`, row-major: column `p mod 64`, row `p div 64` (R8, R19). -/
def fbIndex (fb : Framebuffer) (p : Nat) : Bool := pixel fb (wrapColumn p) (wrapRow (p / 64))

/-- Write one bit of a row. -/
def setRowBit (row : BitVec 64) (cx : Fin 64) (on : Bool) : BitVec 64 :=
  if on then row ||| BitVec.twoPow 64 cx else row &&& ~~~BitVec.twoPow 64 cx

/-- `FB[cy*64 + cx] <- on` (R19). -/
def setPixel (fb : Framebuffer) (cx : Fin 64) (cy : Fin 32) (on : Bool) : Framebuffer :=
  fb.set cy (setRowBit fb[cy] cx on)

/-- `FbClear()` (R120): every pixel off. -/
def fbClear : Framebuffer := Vector.replicate 32 0

/-- What `DrawSprite` carries along: the grid, and whether a collision has occurred so far. -/
abbrev Blit := Framebuffer × Bool

/-- The body of the inner loop (R121): sprite bit `s` at column `cx`, row `cy`. -/
def drawPixel (b : Blit) (cx : Fin 64) (cy : Fin 32) (s : Bool) : Blit :=
  (setPixel b.1 cx cy (pixel b.1 cx cy ^^ s), b.2 || pixelCollides s (pixel b.1 cx cy))

/-- The sprite bit of column `j`: bit `7 - j`, the most significant bit being the leftmost pixel (R121). -/
def spriteBit (row : Byte) (j : Nat) : Bool := row.getLsbD (7 - j)

/-- The inner loop (R121): the columns `j`, in order, of one sprite row drawn at start column `x0` of grid row `cy`. -/
def drawColumns (x0 : Nat) (cy : Fin 32) (row : Byte) : List Nat → Blit → Blit
  | [], b => b
  | j :: js, b => drawColumns x0 cy row js (drawPixel b (wrapColumn (x0 + j)) cy (spriteBit row j))

/-- The outer loop (R121): sprite rows in order, the first one at grid row `y`. -/
def drawRows (x0 : Nat) : Nat → List Byte → Blit → Blit
  | _, [], b => b
  | y, row :: rows, b => drawRows x0 (y + 1) rows (drawColumns x0 (wrapRow y) row (List.range 8) b)

/-- `DrawSprite(x0, y0, rows)` (R121): the grid afterwards and whether any collision occurred. -/
def drawSprite (fb : Framebuffer) (x0 y0 : Byte) (rows : List Byte) : Framebuffer × Bool :=
  drawRows x0.toNat y0.toNat rows (fb, false)

end Sys2Proof.Machine
end

