-- ==== Sys2Proof/Machine/Display.lean ====
section
/-! DEFINITION. The display instructions (R122, R123). -/

namespace Sys2Proof.Machine

/-- CLS (R122). -/
def execCls (s : State) : Result := { s with fb := fbClear }.advance s

/-- DRW Vx,Vy,n (R123): the rows are read before any write, the coordinates before VF is written (D22), and n = 0 reads no
memory (D9). -/
def execDrwVxVyN (x y : Reg) (n : Nibble) (s : State) : Result :=
  s.orRaise (s.memRead s.i (rowCount n)) fun rows =>
    let drawn := drawSprite s.fb (s.readV x) (s.readV y) rows
    ({ s with fb := drawn.1 }.writeV regVF (collisionFlag drawn.2)).advance s

end Sys2Proof.Machine
end

