-- ==== Sys2Proof/Machine/KeypadTimer.lean ====
section
/-! DEFINITION. The keypad and delay-timer instructions (R130 to R133). -/

namespace Sys2Proof.Machine

/-- SKNP Vx (R130): the whole register is the key number; above 15 it raises before the keys are sampled (D6). -/
def execSknpVx (x : Reg) (s : State) : Result :=
  if s.readV x > 15 then s.raise (.keyIndexError s.pc (encode (.sknpVx x)) (s.readV x))
  else s.nextSample.skipIf (!s.keyDown (s.readV x))

/-- LD Vx,DT (R131): DT before this step's decay. -/
def execLdVxDt (x : Reg) (s : State) : Result := (s.writeV x s.dt).advance s

/-- LD DT,Vx (R132): this step's decay then runs on the value written. -/
def execLdDtVx (x : Reg) (s : State) : Result := { s with dt := s.readV x }.advance s

end Sys2Proof.Machine
end

