-- ==== Sys2Proof/Machine/LoadArith.lean ====
section
/-! DEFINITION. The register load and arithmetic instructions (R110 to R116). -/

namespace Sys2Proof.Machine

/-- LD Vx,kk (R110). -/
def execLdVxKk (x : Reg) (kk : Byte) (s : State) : Result := (s.writeV x kk).advance s

/-- ADD Vx,kk (R111): modulo 256, no flag. -/
def execAddVxKk (x : Reg) (kk : Byte) (s : State) : Result := (s.writeV x (s.readV x + kk)).advance s

/-- LD Vx,Vy (R112). -/
def execLdVxVy (x y : Reg) (s : State) : Result := (s.writeV x (s.readV y)).advance s

/-- LD I,addr (R113). -/
def execLdIAddr (nnn : Addr) (s : State) : Result := { s with i := addrOperand nnn }.advance s

/-- ADD I,Vx (R114): modulo 65536 (D7), no flag, no access. -/
def execAddIVx (x : Reg) (s : State) : Result := { s with i := s.i + byteOperand (s.readV x) }.advance s

/-- LD F,Vx (R115): the exact 16-bit product, no masking (D8). -/
def execLdFVx (x : Reg) (s : State) : Result :=
  { s with i := byteOperand (s.readV x) * BitVec.ofNat 16 Config.glyphBytes }.advance s

end Sys2Proof.Machine
end

