-- ==== Sys2Proof/Machine/MemoryOps.lean ====
section
/-! DEFINITION. The memory instructions (R140 to R142); none of them changes I (D14). -/

namespace Sys2Proof.Machine

/-- LD B,Vx (R140): three digits, checked together before any is stored. -/
def execLdBVx (x : Reg) (s : State) : Result :=
  s.orRaise (s.memWrite s.i (bcdDigits (s.readV x))) fun m => { s with mem := m }.advance s

/-- LD Vx,[I] (R141): V0 to Vx, checked together before any is loaded. -/
def execLdVxI (x : Reg) (s : State) : Result :=
  s.orRaise (s.memRead s.i (loadCount x)) fun bytes => (s.loadV bytes).advance s

end Sys2Proof.Machine
end

