-- ==== Sys2Proof/Machine/Step.lean ====
section
/-! DEFINITION. One step of the core (R90), and how the host places an instruction where the next step fetches it. -/

namespace Sys2Proof.Machine

/-- Phases 2 and 3 for a fetched word: decode it, execute it, or raise `InvalidOpcodeError` (R92, R93). -/
def runWord (w : Word) (s : State) : Host.Outcome State Fault Refusal :=
  match decodeWord w with
  | .ok i => exec i s
  | .error _ => s.raise (.invalidOpcode s.pc w)

/-- `Step` (R90): nothing while faulted (R97); otherwise fetch, decode, execute, decay, refresh. -/
def step (s : State) : Host.Outcome State Fault Refusal :=
  if s.fault.isSome then .next s
  else endStep (s.orRaise s.fetch fun w => runWord w s)

/-- The instruction word `w`, as the opcode table numbers its bits, stored big-endian at PC, where `step` fetches. A PC from
which nothing can be fetched (4095 or more, R91) has no place for it: the state is then left as it is. -/
def State.withFetchWord (s : State) (nbits w : Nat) : State :=
  if accessOk s.pc.toNat 2 then { s with mem := s.mem.writeBytes s.pc.toNat (bytesBE (tableWord nbits w)) } else s

end Sys2Proof.Machine
end

