-- ==== Sys2Proof/Safety.lean ====
section
/-! DEFINITION. What counts as a safe run, in the terms the statements use: the core is not faulted (R171), the invariant
every step keeps, runs of several steps, and the two ends of a run that R188 suggests. -/

namespace Sys2Proof.Machine

/-- The core is ready for a step (R169): no fault stands in the latch. -/
abbrev State.ready (s : State) : Prop := s.fault = none

/-- What every step keeps: memory in canonical form, SP from 0 to 16 (R16), every return address at most 0x1000 and PC at
most 0x1002 (R15, R100). R24's other "invariants" are premises about programs, not kept by the hardware. -/
abbrev State.Inv (s : State) : Prop :=
  s.mem.wf ∧ s.sp.toNat ≤ 16 ∧ (∀ k : Fin 16, s.stack[k].toNat ≤ 0x1000) ∧ s.pc.toNat ≤ 0x1002

/-- `n` steps lead from `s` to `t`, the ones that raise and those taken while faulted included (R90, R97). -/
def Run : Nat → State → State → Prop
  | 0, s, t => t = s
  | n + 1, s, t => ∃ u, step s = .next u ∧ Run n u t

/-- `n` steps lead from `s` to `t` with the core ready at every point, `t` included. -/
def SafeRun : Nat → State → State → Prop
  | 0, s, t => s.ready ∧ t = s
  | n + 1, s, t => s.ready ∧ ∃ u, step s = .next u ∧ SafeRun n u t

/-- A state whose PC holds a `1nnn` with nnn = PC (R188): the suggested end of a program. -/
def State.atSelfJump (s : State) : Prop :=
  ∃ nnn : Addr, s.pc = addrOperand nnn ∧ s.fetch = .ok (encode (.jpAddr nnn))

/-- The open parameter `RUN_END` (R188, D19): which states end a program's run. -/
inductive RunEnd where
  /-- The state after exactly `n` steps from reset. -/
  | afterSteps (n : Nat)
  /-- The first state that stands at a jump to itself. -/
  | selfJump
  deriving DecidableEq, Repr

/-- `t` is the end, by `e`, of the run that starts in `s`; a faulted state never is (R97, R171). -/
def RunEnd.endsAt (e : RunEnd) (s t : State) : Prop :=
  match e with
  | .afterSteps n => SafeRun n s t
  | .selfJump => t.atSelfJump ∧ ∃ n, SafeRun n s t ∧ ∀ m < n, ∀ u, SafeRun m s u → ¬ u.atSelfJump

end Sys2Proof.Machine
end

