-- ==== Sys2Proof/Certificates/Slice0/Obligations.lean ====
section
/-! DEFINITION. The statements for the provers, in the order of the spec's files. A next state is described by the items an
instruction changes and by an equation `t = { s with … }`, which says that every other item of the state is unchanged; where
an instruction stores nothing, `SameMemory` says in addition that every address reads as before. -/

open Sys2Proof Sys2Proof.Machine

namespace Sys2Proof.Machine

/-- `s` with the record `r` in the fault latch, every other item as it was (R96, R161). -/
def raised (s : State) (r : FaultRecord) : State := { s with fault := some r }

/-- Every address reads as before. -/
def SameMemory (s t : State) : Prop := ∀ a : Nat, t.mem.read a = s.mem.read a

/-- The operands of `i` are the fields of `w` at the positions of R71, as arithmetic on the word's value. -/
def OperandsAreFields (w : Word) : Instr → Prop
  | .cls | .ret => True
  | .jpAddr nnn | .callAddr nnn | .ldIAddr nnn => nnn.toNat = w.toNat % 4096
  | .seVxKk x kk | .sneVxKk x kk | .ldVxKk x kk | .addVxKk x kk =>
    x.val = w.toNat / 256 % 16 ∧ kk.toNat = w.toNat % 256
  | .seVxVy x y | .ldVxVy x y | .sneVxVy x y => x.val = w.toNat / 256 % 16 ∧ y.val = w.toNat / 16 % 16
  | .drwVxVyN x y n => x.val = w.toNat / 256 % 16 ∧ y.val = w.toNat / 16 % 16 ∧ n.toNat = w.toNat % 16
  | .sknpVx x | .ldVxDt x | .ldDtVx x | .addIVx x | .ldFVx x | .ldBVx x | .ldVxI x => x.val = w.toNat / 256 % 16

/-- A set bit of the sprite `rows`, drawn from column `x0` and row `y0`, lands on column `cx`, row `cy` of the torus
(R121, R125). -/
def SpriteCovers (x0 y0 : Byte) (rows : List Byte) (cx : Fin 64) (cy : Fin 32) : Prop :=
  ∃ i j : Nat, j < 8 ∧ (x0.toNat + j) % 64 = cx.val ∧ (y0.toNat + i) % 32 = cy.val ∧
    ∃ row, rows[i]? = some row ∧ row.getLsbD (7 - j) = true

/-- What the instruction does to PC, fetched from address `A` (R99). -/
def pcAfter (s : State) : Instr → Nat
  | .ret => if h : s.sp.toNat - 1 < 16 then (s.stack[s.sp.toNat - 1]).toNat else 0
  | .jpAddr nnn | .callAddr nnn => nnn.toNat
  | .seVxKk x kk => if s.v[x] = kk then s.pc.toNat + 4 else s.pc.toNat + 2
  | .sneVxKk x kk => if s.v[x] ≠ kk then s.pc.toNat + 4 else s.pc.toNat + 2
  | .seVxVy x y => if s.v[x] = s.v[y] then s.pc.toNat + 4 else s.pc.toNat + 2
  | .sneVxVy x y => if s.v[x] ≠ s.v[y] then s.pc.toNat + 4 else s.pc.toNat + 2
  | .sknpVx x => if s.keyDown s.v[x] = false then s.pc.toNat + 4 else s.pc.toNat + 2
  | .cls | .ldVxKk _ _ | .addVxKk _ _ | .ldVxVy _ _ | .ldIAddr _ | .drwVxVyN _ _ _ | .ldVxDt _ | .ldDtVx _ | .addIVx _
  | .ldFVx _ | .ldBVx _ | .ldVxI _ => s.pc.toNat + 2

/-- The instruction that the next step of `s` executes is `i` (R90). -/
def Executes (s : State) (i : Instr) : Prop :=
  s.ready ∧ ∃ w, s.fetch = .ok w ∧ decodeWord w = .ok i

/-- Two states that agree on everything but the stack entries at index SP and above (R17). -/
def AgreeButStaleStack (s t : State) : Prop :=
  t = { s with stack := t.stack } ∧ ∀ k : Fin 16, k.val < s.sp.toNat → t.stack[k] = s.stack[k]

end Sys2Proof.Machine

/-! ## State and reset (10_state.md, 70_reset_and_hazards.md) -/

/-- R25, R41, R50: whatever the FONT and the ROM that fits, reset leaves PC at 0x200, the framebuffer off, the font in
[0, 80), the ROM in [0x200, 0x200 + L) and zero in every other byte, from any state, with the memory in canonical form. -/
def Obligations.ResetPlacesFontRomAndZeros : Prop :=
  ∀ (font : Vector Byte 80) (rom : List Byte) (s : State), rom.length ≤ 3584 →
    (s.applyReset font rom).pc.toNat = 0x200 ∧
    (∀ p < 2048, fbIndex (s.applyReset font rom).fb p = false) ∧
    (∀ a : Fin 80, (s.applyReset font rom).mem.read a.val = font[a]) ∧
    (∀ k : Fin rom.length, (s.applyReset font rom).mem.read (0x200 + k.val) = rom[k]) ∧
    (∀ a : Nat, 80 ≤ a → (a < 0x200 ∨ 0x200 + rom.length ≤ a) → (s.applyReset font rom).mem.read a = 0) ∧
    (s.applyReset font rom).mem.wf

/-- The spec's own choice (D5, D2, D1; log entries 1, 6 and 21): reset clears V, I, DT, SP, the stack and the fault latch, from any state,
the faulted one included. -/
def Obligations.ResetClearsRegistersAndFault : Prop :=
  ∀ (font : Vector Byte 80) (rom : List Byte) (s : State), rom.length ≤ 3584 →
    (∀ r : Reg, (s.applyReset font rom).v[r] = 0) ∧ (s.applyReset font rom).i = 0 ∧
    (s.applyReset font rom).dt = 0 ∧ (s.applyReset font rom).sp = 0 ∧
    (∀ k : Fin 16, (s.applyReset font rom).stack[k] = 0) ∧ (s.applyReset font rom).fault = none

/-- The spec's own choice (D11; log entry 14): a ROM longer than 3584 bytes is refused whole, and the core leaves reset faulted with the
font loaded and every byte outside it zero. -/
def Obligations.OversizedRomRefusedWhole : Prop :=
  ∀ (font : Vector Byte 80) (rom : List Byte) (s : State), 3584 < rom.length →
    (s.applyReset font rom).fault = some (.addressError 0x200 0x200 rom.length) ∧
    (∀ a : Fin 80, (s.applyReset font rom).mem.read a.val = font[a]) ∧
    (∀ a : Nat, 80 ≤ a → (s.applyReset font rom).mem.read a = 0) ∧
    step (s.applyReset font rom) = .next (s.applyReset font rom)

/-- The state the host starts from is the reset state with the default FONT, the spec's own choice (D18; log entry 5), and no
ROM, and it meets the invariant. -/
def Obligations.ResetStateMeetsInvariant : Prop :=
  State.reset.Inv ∧ State.reset.applyReset defaultFont [] = State.reset

/-- R15, R16: every step keeps memory canonical, SP in 0..16, every return address at most 0x1000 and PC at most 0x1002. -/
def Obligations.StepKeepsInvariant : Prop :=
  ∀ s t : State, s.Inv → step s = .next t → t.Inv

/-- Nothing is stuck (93, section 1; R190): from every state that meets the invariant a step answers a next state. -/
def Obligations.StepNeverStuckUnderInvariant : Prop :=
  ∀ s : State, s.Inv → ∃ t, step s = .next t

/-- R15, R16: in every state that any number of steps reaches from reset, the faulted ones included, with any FONT and any
ROM, SP is at most 16, PC at most 0x1002 and memory canonical. That a ROM too long leaves reset faulted, and so this bound
unbroken, is the spec's own choice (D11; log entry 14). -/
def Obligations.ReachableStatesBounded : Prop :=
  ∀ (font : Vector Byte 80) (rom : List Byte) (s t : State) (n : Nat),
    Run n (s.applyReset font rom) t → t.sp.toNat ≤ 16 ∧ t.pc.toNat ≤ 0x1002 ∧ t.mem.wf

/-- R17: the stack entries at index SP and above cannot be observed. Two states that agree on everything else step to states
that agree on everything else. -/
def Obligations.StaleStackEntriesUnobservable : Prop :=
  ∀ s t s' : State, AgreeButStaleStack s t → step s = .next s' →
    ∃ t', step t = .next t' ∧ AgreeButStaleStack s' t'

/-- R11, R13, R14, R16 to R20, R27: which instructions can change which item of the state, over all twenty; PC alone is
written by every one of them. That DRW, LD B,Vx and LD Vx,[I] do not change I is the spec's own choice (D14; log entry 17), so
are the faults of CALL and RET (D4; log entry 8) and of SKNP (D6; log entry 9); the last two clauses are about fields of the
model's own (log entries 2 and 3). -/
def Obligations.EachItemHasOnlyItsWriters : Prop :=
  ∀ (i : Instr) (s t : State), exec i s = .next t →
    (t.fb ≠ s.fb → i = .cls ∨ ∃ x y n, i = .drwVxVyN x y n) ∧
    (t.mem ≠ s.mem → ∃ x, i = .ldBVx x) ∧
    (t.stack ≠ s.stack → ∃ nnn, i = .callAddr nnn) ∧
    (t.sp ≠ s.sp → i = .ret ∨ ∃ nnn, i = .callAddr nnn) ∧
    (t.i ≠ s.i → (∃ nnn, i = .ldIAddr nnn) ∨ (∃ x, i = .addIVx x) ∨ ∃ x, i = .ldFVx x) ∧
    (t.dt ≠ s.dt → ∃ x, i = .ldDtVx x) ∧
    (∀ r : Reg, t.v[r] ≠ s.v[r] →
      (∃ kk, i = .ldVxKk r kk) ∨ (∃ kk, i = .addVxKk r kk) ∨ (∃ y, i = .ldVxVy r y) ∨ i = .ldVxDt r ∨
      (∃ x, i = .ldVxI x ∧ r ≤ x) ∨ (r = 15 ∧ ∃ x y n, i = .drwVxVyN x y n)) ∧
    (t.fault ≠ s.fault → i = .ret ∨ (∃ nnn, i = .callAddr nnn) ∨ (∃ x, i = .sknpVx x) ∨
      (∃ x y n, i = .drwVxVyN x y n) ∨ (∃ x, i = .ldBVx x) ∨ ∃ x, i = .ldVxI x) ∧
    (t.keyInput ≠ s.keyInput ∨ t.keySamples ≠ s.keySamples → ∃ x, i = .sknpVx x) ∧
    t.refreshCount = s.refreshCount ∧ t.refreshFrame = s.refreshFrame

/-! ## Memory (20_memory.md) -/

/-- R44 and the document's law: a write of a range that fits, then a read of the same range, returns exactly those bytes, and
no other cell changes. -/
def Obligations.WriteThenReadReturnsBytes : Prop :=
  ∀ (s : State) (addr : Word) (bytes : List Byte), s.mem.wf → addr.toNat + bytes.length ≤ 4096 →
    ∃ m, s.memWrite addr bytes = .ok m ∧ { s with mem := m }.memRead addr bytes.length = .ok bytes ∧
      ∀ a : Nat, (a < addr.toNat ∨ addr.toNat + bytes.length ≤ a) → m.read a = s.mem.read a

/-- R42, R43, R44: an access of one byte or more that leaves [0, 4096) raises `AddressError` with its address and length, and
an access of no bytes raises nothing, whatever the address. That the whole range is checked and that no bytes are always in
range are the spec's own choices (D15, D9; log entries 18 and 12). -/
def Obligations.AccessesAreCheckedWhole : Prop :=
  ∀ (s : State) (addr : Word) (bytes : List Byte), 4096 < addr.toNat + bytes.length →
    (bytes ≠ [] → s.memRead addr bytes.length = .error (.addressError s.pc addr bytes.length) ∧
      s.memWrite addr bytes = .error (.addressError s.pc addr bytes.length)) ∧
    s.memRead addr 0 = .ok [] ∧ s.memWrite addr [] = .ok s.mem

/-- The model's own choice (log entry 26), not a rule of the spec: memory is held as a list in one canonical form, and two
canonical memories that read the same everywhere are the same data. -/
def Obligations.CanonicalMemoriesAreEqual : Prop :=
  ∀ m m' : Memory, m.wf → m'.wf → (∀ a : Nat, m.read a = m'.read a) → m = m'

/-! ## Encoding (30_encoding.md) -/

/-- R71, R72, R75: decoding the encoding of any instruction, with every operand at every value, gives it back. -/
def Obligations.DecodeOfEncode : Prop :=
  ∀ i : Instr, decodeWord (encode i) = .ok i

/-- R74: each word has at most one meaning: the instruction decoded from a word encodes to that word. -/
def Obligations.EncodeOfDecode : Prop :=
  ∀ (w : Word) (i : Instr), decodeWord w = .ok i → encode i = w

/-- R74: a word decodes to the instruction of the one row of the opcode map it matches, its operands being its fields; a word
that matches no row is rejected; and no word matches two rows. -/
def Obligations.DecodeFollowsOpcodeMap : Prop :=
  ∀ w : Word,
    (∀ i, decodeWord w = .ok i →
      OperandsAreFields w i ∧ ∃ r, opcodeRows[i.rowIndex]? = some r ∧ r.matchesWord w = true) ∧
    (wellFormedWord w = true → ∃ i, decodeWord w = .ok i) ∧
    (wellFormedWord w = false → decodeWord w = .error (.illegal w)) ∧
    (∀ r ∈ opcodeRows, ∀ r' ∈ opcodeRows, r.matchesWord w = true → r'.matchesWord w = true → r = r')

/-- R76, the table of illegal words by class: the words rejected are exactly those it lists. -/
def Obligations.IllegalWordsByClass : Prop :=
  ∀ w : Word, decodeWord w = .error (.illegal w) ↔
    (w.toNat / 4096 = 0x0 ∧ w ≠ 0x00E0 ∧ w ≠ 0x00EE) ∨
    ((w.toNat / 4096 = 0x5 ∨ w.toNat / 4096 = 0x8 ∨ w.toNat / 4096 = 0x9) ∧ w.toNat % 16 ≠ 0) ∨
    w.toNat / 4096 = 0xB ∨ w.toNat / 4096 = 0xC ∨
    (w.toNat / 4096 = 0xE ∧ w.toNat % 256 ≠ 0xA1) ∨
    (w.toNat / 4096 = 0xF ∧ w.toNat % 256 ∉ ([0x07, 0x15, 0x1E, 0x29, 0x33, 0x65] : List Nat))

/-- Words of the spec's decoding vectors (95, section 2), one or more of each format and family. -/
def Obligations.SampleWordsDecode : Prop :=
  decodeWord 0x00E0 = .ok .cls ∧ decodeWord 0x00EE = .ok .ret ∧ decodeWord 0x2300 = .ok (.callAddr 0x300) ∧
  decodeWord 0x3A05 = .ok (.seVxKk 10 0x05) ∧ decodeWord 0x9120 = .ok (.sneVxVy 1 2) ∧
  decodeWord 0x7003 = .ok (.addVxKk 0 0x03) ∧ decodeWord 0xA214 = .ok (.ldIAddr 0x214) ∧
  decodeWord 0xD125 = .ok (.drwVxVyN 1 2 5) ∧ decodeWord 0xE0A1 = .ok (.sknpVx 0) ∧
  decodeWord 0xF307 = .ok (.ldVxDt 3) ∧ decodeWord 0xFF65 = .ok (.ldVxI 15) ∧
  decodeWord 0x5121 = .error (.illegal 0x5121) ∧ decodeWord 0xF055 = .error (.illegal 0xF055)

/-- R82: the disassembly examples of the source. -/
def Obligations.SourceDisassemblyExamples : Prop :=
  disassemble (.ldVxKk 0 0x12) = "LD V0,0x12" ∧ encode (.ldVxKk 0 0x12) = 0x6012 ∧
  disassemble (.addVxKk 0 0x03) = "ADD V0,0x03" ∧ encode (.addVxKk 0 0x03) = 0x7003 ∧
  disassemble (.callAddr 0x300) = "CALL 0x300" ∧ encode (.callAddr 0x300) = 0x2300 ∧
  disassemble .ret = "RET" ∧ encode .ret = 0x00EE ∧
  disassemble (.seVxKk 10 0x05) = "SE VA,0x05" ∧ encode (.seVxKk 10 0x05) = 0x3A05 ∧
  ∀ x : Reg, disassemble (.ldFVx x) = "LD F," ++ asmReg x ∧ (encode (.ldFVx x)).toNat = 0xF029 + x.val * 256

/-! ## The cycle (40_cycle.md) -/

/-- R90, R93 to R96: a step of a ready core whose bytes at PC decode to `i` is `exec i`, followed, when that raised nothing,
by the decay of DT and a `Refresh` of the framebuffer as it then stands. That a step that raised does neither is the spec's
own choice (D2; log entry 6), as is what drives the decay (D12; log entry 15), and the count and the frame of the `Refresh`
events are fields of the model's own (log entry 3). -/
def Obligations.StepRunsDecodedInstruction : Prop :=
  ∀ (s : State) (i : Instr), s.ready → s.pc.toNat + 2 ≤ 4096 →
    decodeWord (wordBE (s.mem.read s.pc.toNat) (s.mem.read (s.pc.toNat + 1))) = .ok i →
    (∀ t, exec i s = .next t → t.ready →
      step s = .next
        { t with dt := BitVec.ofNat 8 (t.dt.toNat - 1), refreshCount := t.refreshCount + 1, refreshFrame := some t.fb }) ∧
    (∀ t, exec i s = .next t → ¬ t.ready → step s = .next t) ∧
    (∀ f, exec i s = .fault f → step s = .fault f)

/-- R91: a fetch at PC 4095 or more raises `AddressError(PC, 2)`. That nothing else changes and that the record names PC are
the spec's own choices (D2, D3; log entries 6 and 7). -/
def Obligations.FetchOutsideMemoryRaises : Prop :=
  ∀ s : State, s.ready → 4095 ≤ s.pc.toNat → step s = .next (raised s (.addressError s.pc s.pc 2))

/-- R92, R151: a word that decodes to nothing raises `InvalidOpcodeError` with PC and the raw word. That nothing else changes
is the spec's own choice (D2; log entry 6). -/
def Obligations.IllegalWordRaisesInvalidOpcode : Prop :=
  ∀ s : State, s.ready → s.pc.toNat + 2 ≤ 4096 →
    wellFormedWord (wordBE (s.mem.read s.pc.toNat) (s.mem.read (s.pc.toNat + 1))) = false →
    step s = .next (raised s (.invalidOpcode s.pc (wordBE (s.mem.read s.pc.toNat) (s.mem.read (s.pc.toNat + 1)))))

/-- R97: a step while faulted changes nothing. The latch is the spec's own choice (D2; log entry 6). -/
def Obligations.FaultedStepDoesNothing : Prop :=
  ∀ s : State, s.fault ≠ none → step s = .next s

/-- R96, R161: when a step raises, every item but FAULT has the value it had before. The freeze is the spec's own choice
(D2; log entry 6). -/
def Obligations.FaultsArePrecise : Prop :=
  ∀ (s t : State) (r : FaultRecord), s.ready → step s = .next t → t.fault = some r → t = raised s r

/-- R94, R95: every step that completes decays DT by one, stopping at zero, after the instruction's own effect, and emits one
`Refresh` that carries the framebuffer as it stands afterwards; a step that raises does neither, the spec's own choice (D2;
log entry 6). The count and the frame of the events are fields of the model's own (log entry 3). -/
def Obligations.CompletedStepDecaysAndRefreshes : Prop :=
  ∀ s t : State, s.ready → step s = .next t →
    (t.ready → t.refreshCount = s.refreshCount + 1 ∧ t.refreshFrame = some t.fb ∧
      ∃ i u, Executes s i ∧ exec i s = .next u ∧ t.dt.toNat = u.dt.toNat - 1 ∧
        ((∀ x, i ≠ .ldDtVx x) → u.dt = s.dt)) ∧
    (¬ t.ready → t.refreshCount = s.refreshCount ∧ t.refreshFrame = s.refreshFrame ∧ t.dt = s.dt)

/-- R99: what each instruction does to PC, and that the decay of R94 follows every one of them. -/
def Obligations.PcAndTimerPerInstruction : Prop :=
  ∀ (i : Instr) (s t : State), Executes s i → step s = .next t → t.ready →
    t.pc.toNat = pcAfter s i ∧
    t.dt.toNat = (match i with
      | .ldDtVx x => s.v[x].toNat
      | _ => s.dt.toNat) - 1

/-- R159: a step raises at most one fault, and the kind an instruction can raise is fixed: CALL, RET, SKNP, and `AddressError`
for the three memory instructions. The kinds but `AddressError` and all the records are the spec's own choices (D3, D4, D6; log
entries 7 to 9). -/
def Obligations.EachInstructionRaisesOnlyItsFault : Prop :=
  ∀ (i : Instr) (s t : State) (r : FaultRecord), s.ready → exec i s = .next t → t.fault = some r →
    (∃ nnn, i = .callAddr nnn ∧ r = .stackOverflow s.pc (encode i)) ∨
    (i = .ret ∧ r = .stackUnderflow s.pc (encode i)) ∨
    (∃ x, i = .sknpVx x ∧ r = .keyIndexError s.pc (encode i) s.v[x]) ∨
    (∃ x y n, i = .drwVxVyN x y n ∧ r = .addressError s.pc s.i n.toNat) ∨
    (∃ x, i = .ldBVx x ∧ r = .addressError s.pc s.i 3) ∨
    (∃ x, i = .ldVxI x ∧ r = .addressError s.pc s.i (x.val + 1))

/-- R151, R153, R154, R155: the word a fault records is the word that was fetched, and PC its address. For the stack and key
faults the record is the spec's own choice (D3; log entry 7). -/
def Obligations.FaultRecordsHoldFetchedWord : Prop :=
  ∀ (s t : State) (w : Word), s.ready → s.fetch = .ok w → step s = .next t →
    (∀ pc w', t.fault = some (.stackOverflow pc w') → pc = s.pc ∧ w' = w) ∧
    (∀ pc w', t.fault = some (.stackUnderflow pc w') → pc = s.pc ∧ w' = w) ∧
    (∀ pc w' k, t.fault = some (.keyIndexError pc w' k) → pc = s.pc ∧ w' = w ∧ 15 < k.toNat) ∧
    (∀ pc w', t.fault = some (.invalidOpcode pc w') → pc = s.pc ∧ w' = w)

/-- R157: the fault codes, which are the spec's own choice (D3; log entry 7). -/
def Obligations.FaultCodesAsAssigned : Prop :=
  ∀ (pc w a : Word) (n : Nat) (k : Byte),
    faultCode none = 0 ∧ faultCode (some (.invalidOpcode pc w)) = 1 ∧ faultCode (some (.addressError pc a n)) = 2 ∧
    faultCode (some (.stackOverflow pc w)) = 3 ∧ faultCode (some (.stackUnderflow pc w)) = 4 ∧
    faultCode (some (.keyIndexError pc w k)) = 5

/-! ## Control transfer (41_control_flow.md) -/

/-- R100. RET with a frame on the stack pops it: SP goes down by one and PC takes the entry below the old SP, all 16 bits.
RET with an empty stack raises `StackUnderflow`, the spec's own choice (D4; log entry 8). -/
def Obligations.RetPopsOrUnderflows : Prop :=
  ∀ s : State,
    (∀ k : Fin 16, s.sp.toNat = k.val + 1 →
      exec .ret s = .next { s with sp := BitVec.ofNat 8 k.val, pc := s.stack[k] }) ∧
    (s.sp = 0 → exec .ret s = .next (raised s (.stackUnderflow s.pc 0x00EE)))

/-- R101. JP: PC takes the 12-bit target, and nothing but PC changes. -/
def Obligations.JpSetsPc : Prop :=
  ∀ (s : State) (nnn : Addr), ∃ t, exec (.jpAddr nnn) s = .next t ∧ t.pc.toNat = nnn.toNat ∧
    t = { s with pc := t.pc } ∧ SameMemory s t

/-- R102. CALL with a free entry saves NEXT in `STACK[SP]`, raises SP by one and jumps; CALL with sixteen frames raises
`StackOverflow`, the spec's own choice (D4; log entry 8). -/
def Obligations.CallPushesOrOverflows : Prop :=
  ∀ (s : State) (nnn : Addr),
    (∀ k : Fin 16, s.sp.toNat = k.val → ∃ t, exec (.callAddr nnn) s = .next t ∧
      t.stack[k].toNat = (s.pc.toNat + 2) % 65536 ∧ (∀ j : Fin 16, j ≠ k → t.stack[j] = s.stack[j]) ∧
      t.sp.toNat = k.val + 1 ∧ t.pc.toNat = nnn.toNat ∧
      t = { s with stack := t.stack, sp := t.sp, pc := t.pc } ∧ SameMemory s t) ∧
    (s.sp.toNat = 16 →
      exec (.callAddr nnn) s =
        .next (raised s (.stackOverflow s.pc (BitVec.ofNat 16 (0x2000 + nnn.toNat)))))

/-- The model's own stop (log entry 4): with SP at 17 to 255, which no run reaches, the stack has no entry and CALL and RET
stop. -/
def Obligations.CallAndRetStopBeyondStack : Prop :=
  ∀ (s : State) (nnn : Addr), 17 ≤ s.sp.toNat →
    exec .ret s = .fault .stackPointerOutOfRange ∧ exec (.callAddr nnn) s = .fault .stackPointerOutOfRange

/-- R103, R104. SE and SNE with an immediate skip one two-byte slot on equality, or inequality, and change PC alone. -/
def Obligations.SkipOnImmediate : Prop :=
  ∀ (s : State) (x : Reg) (kk : Byte),
    (∃ t, exec (.seVxKk x kk) s = .next t ∧
      t.pc.toNat = (s.pc.toNat + if s.v[x].toNat = kk.toNat then 4 else 2) % 65536 ∧
      t = { s with pc := t.pc } ∧ SameMemory s t) ∧
    (∃ t, exec (.sneVxKk x kk) s = .next t ∧
      t.pc.toNat = (s.pc.toNat + if s.v[x].toNat ≠ kk.toNat then 4 else 2) % 65536 ∧
      t = { s with pc := t.pc } ∧ SameMemory s t)

/-- R105, R106. SE and SNE on two registers likewise. -/
def Obligations.SkipOnRegisters : Prop :=
  ∀ (s : State) (x y : Reg),
    (∃ t, exec (.seVxVy x y) s = .next t ∧
      t.pc.toNat = (s.pc.toNat + if s.v[x].toNat = s.v[y].toNat then 4 else 2) % 65536 ∧
      t = { s with pc := t.pc } ∧ SameMemory s t) ∧
    (∃ t, exec (.sneVxVy x y) s = .next t ∧
      t.pc.toNat = (s.pc.toNat + if s.v[x].toNat ≠ s.v[y].toNat then 4 else 2) % 65536 ∧
      t = { s with pc := t.pc } ∧ SameMemory s t)

/-- The source's seventh property: a CALL, then a RET from any later state whose SP and stack are as the CALL left them,
returns to the instruction after the CALL and gives SP its value before it. -/
def Obligations.RetReturnsPastItsCall : Prop :=
  ∀ (s t u v : State) (nnn : Addr), s.ready → exec (.callAddr nnn) s = .next t → t.ready →
    u.sp = t.sp → u.stack = t.stack → exec .ret u = .next v →
    v.pc.toNat = (s.pc.toNat + 2) % 65536 ∧ v.sp = s.sp ∧ v.fault = u.fault

/-! ## Loads and arithmetic (42_load_arith.md) -/

/-- R110. -/
def Obligations.LdVxKkLoadsImmediate : Prop :=
  ∀ (s : State) (x : Reg) (kk : Byte), ∃ t, exec (.ldVxKk x kk) s = .next t ∧
    t.v[x] = kk ∧ (∀ r : Reg, r ≠ x → t.v[r] = s.v[r]) ∧ t.pc.toNat = (s.pc.toNat + 2) % 65536 ∧
    t = { s with v := t.v, pc := t.pc } ∧ SameMemory s t

/-- R111: modulo 256, with no flag; VF changes only if it is the register named. -/
def Obligations.AddVxKkWrapsWithoutFlag : Prop :=
  ∀ (s : State) (x : Reg) (kk : Byte), ∃ t, exec (.addVxKk x kk) s = .next t ∧
    t.v[x].toNat = (s.v[x].toNat + kk.toNat) % 256 ∧ (∀ r : Reg, r ≠ x → t.v[r] = s.v[r]) ∧
    t.pc.toNat = (s.pc.toNat + 2) % 65536 ∧ t = { s with v := t.v, pc := t.pc } ∧ SameMemory s t

/-- R112. -/
def Obligations.LdVxVyCopiesRegister : Prop :=
  ∀ (s : State) (x y : Reg), ∃ t, exec (.ldVxVy x y) s = .next t ∧
    t.v[x] = s.v[y] ∧ (∀ r : Reg, r ≠ x → t.v[r] = s.v[r]) ∧ t.pc.toNat = (s.pc.toNat + 2) % 65536 ∧
    t = { s with v := t.v, pc := t.pc } ∧ SameMemory s t

/-- R113: the result is below 4096. -/
def Obligations.LdIAddrLoadsAddress : Prop :=
  ∀ (s : State) (nnn : Addr), ∃ t, exec (.ldIAddr nnn) s = .next t ∧
    t.i.toNat = nnn.toNat ∧ t.i.toNat < 4096 ∧ t.pc.toNat = (s.pc.toNat + 2) % 65536 ∧
    t = { s with i := t.i, pc := t.pc } ∧ SameMemory s t

/-- R114: all 16 bits kept, no flag, no access. The wrap past 65535 is the spec's own choice (D7; log entry 10). -/
def Obligations.AddIVxSumsInSixteenBits : Prop :=
  ∀ (s : State) (x : Reg), ∃ t, exec (.addIVx x) s = .next t ∧
    t.i.toNat = (s.i.toNat + s.v[x].toNat) % 65536 ∧ t.pc.toNat = (s.pc.toNat + 2) % 65536 ∧
    t = { s with i := t.i, pc := t.pc } ∧ SameMemory s t

/-- R115: the exact product by 5. That a register above 15 is not masked is the spec's own choice (D8; log entry 11). -/
def Obligations.LdFVxMultipliesByFive : Prop :=
  ∀ (s : State) (x : Reg), ∃ t, exec (.ldFVx x) s = .next t ∧
    t.i.toNat = s.v[x].toNat * 5 ∧ t.pc.toNat = (s.pc.toNat + 2) % 65536 ∧
    t = { s with i := t.i, pc := t.pc } ∧ SameMemory s t

/-! ## Display (43_display.md) -/

/-- R120, R122: every one of the 2048 pixels off, VF not written. -/
def Obligations.ClsTurnsEveryPixelOff : Prop :=
  ∀ s : State, ∃ t, exec .cls s = .next t ∧ (∀ p < 2048, fbIndex t.fb p = false) ∧
    t.pc.toNat = (s.pc.toNat + 2) % 65536 ∧ t = { s with fb := t.fb, pc := t.pc } ∧ SameMemory s t

/-- R121, R124: `DrawSprite` XORs the wrapped sprite onto the grid, each pixel once, and reports a collision exactly when a
set sprite bit falls on a lit pixel. That column j takes bit 7 - j is the spec's reading of its source (C8; log entry 19), and
that the loops are one simultaneous XOR is its inference in R124. -/
def Obligations.DrawSpriteXorsWrappedSprite : Prop :=
  ∀ (fb : Framebuffer) (x0 y0 : Byte) (rows : List Byte), rows.length ≤ 15 →
    (∀ cx cy, (pixel (drawSprite fb x0 y0 rows).1 cx cy = true ↔
      ¬ (pixel fb cx cy = true ↔ SpriteCovers x0 y0 rows cx cy))) ∧
    ((drawSprite fb x0 y0 rows).2 = true ↔ ∃ cx cy, pixel fb cx cy = true ∧ SpriteCovers x0 y0 rows cx cy)

/-- R124, the source's fourth property in general: drawing the same sprite twice at the same place restores the grid, and the
second draw onto a blank grid collides exactly when the sprite has a set bit. -/
def Obligations.DrawingTwiceRestoresGrid : Prop :=
  ∀ (fb : Framebuffer) (x0 y0 : Byte) (rows : List Byte), rows.length ≤ 15 →
    (drawSprite (drawSprite fb x0 y0 rows).1 x0 y0 rows).1 = fb ∧
    ((drawSprite (drawSprite fbClear x0 y0 rows).1 x0 y0 rows).2 = true ↔ ∃ row ∈ rows, row ≠ 0)

/-- R125: start coordinates wrap: a column plus 64 and a row plus 32 draw the same sprite at the same place. -/
def Obligations.StartCoordinatesWrap : Prop :=
  ∀ (fb : Framebuffer) (x0 y0 : Byte) (rows : List Byte),
    drawSprite fb (x0 + 64) y0 rows = drawSprite fb x0 y0 rows ∧
    drawSprite fb x0 (y0 + 32) rows = drawSprite fb x0 y0 rows

/-- R123. DRW whose rows lie in memory, or are none, draws the n bytes at I at the place given by Vx and Vy as they were
before VF is written, and writes VF to 1 or 0; otherwise it raises `AddressError(I, n)` with the grid and VF untouched. The
case n = 0, the order, the untouched grid and the unchanged I are the spec's own choices (D9, D22, D15, D14; log entries 12,
20, 18 and 17). -/
def Obligations.DrwDrawsSpriteAndSetsVf : Prop :=
  ∀ (s : State) (x y : Reg) (n : Nibble),
    (n.toNat = 0 ∨ s.i.toNat + n.toNat ≤ 4096 → ∃ t rows, exec (.drwVxVyN x y n) s = .next t ∧
      rows.length = n.toNat ∧ (∀ k < n.toNat, rows[k]? = some (s.mem.read (s.i.toNat + k))) ∧
      t.fb = (drawSprite s.fb s.v[x] s.v[y] rows).1 ∧
      t.v[(15 : Fin 16)].toNat = (if (drawSprite s.fb s.v[x] s.v[y] rows).2 = true then 1 else 0) ∧
      (∀ r : Reg, r ≠ 15 → t.v[r] = s.v[r]) ∧ t.pc.toNat = (s.pc.toNat + 2) % 65536 ∧
      t = { s with v := t.v, fb := t.fb, pc := t.pc } ∧ SameMemory s t) ∧
    (n.toNat ≠ 0 → 4096 < s.i.toNat + n.toNat →
      exec (.drwVxVyN x y n) s = .next (raised s (.addressError s.pc s.i n.toNat)))

/-! ## Keypad and timer (44_keypad_timer.md) -/

/-- R130, R133. SKNP with a key number 0 to 15 samples the keys once and skips when that key is up, at whatever levels the
environment presents; with a larger one it raises `KeyIndexError` without sampling, the spec's own choice (D6; log entry 9).
With no level listed the level is a free value, and the two fields of the model's own move on by one sample (log entry 2). -/
def Obligations.SknpSkipsWhenKeyUp : Prop :=
  ∀ (s : State) (x : Reg),
    (s.v[x].toNat ≤ 15 → ∃ t, exec (.sknpVx x) s = .next t ∧
      (∀ levels rest, s.keyInput = levels :: rest →
        t.pc.toNat = (s.pc.toNat + if levels.getLsbD s.v[x].toNat = true then 2 else 4) % 65536) ∧
      (s.keyInput = [] →
        t.pc.toNat =
          (s.pc.toNat + if (Config.freeKeyLevels s.keySamples).getLsbD s.v[x].toNat = true then 2 else 4) % 65536) ∧
      t = { s with pc := t.pc, keyInput := s.keyInput.tail, keySamples := s.keySamples + 1 } ∧ SameMemory s t) ∧
    (15 < s.v[x].toNat →
      exec (.sknpVx x) s =
        .next (raised s (.keyIndexError s.pc (BitVec.ofNat 16 (0xE0A1 + x.val * 256)) s.v[x])))

/-- R131, R132. LD Vx,DT and LD DT,Vx move the value in phase 3, before the decay. -/
def Obligations.TimerMoves : Prop :=
  ∀ (s : State) (x : Reg),
    (∃ t, exec (.ldVxDt x) s = .next t ∧ t.v[x] = s.dt ∧ (∀ r : Reg, r ≠ x → t.v[r] = s.v[r]) ∧
      t.pc.toNat = (s.pc.toNat + 2) % 65536 ∧ t = { s with v := t.v, pc := t.pc } ∧ SameMemory s t) ∧
    (∃ t, exec (.ldDtVx x) s = .next t ∧ t.dt = s.v[x] ∧
      t.pc.toNat = (s.pc.toNat + 2) % 65536 ∧ t = { s with dt := t.dt, pc := t.pc } ∧ SameMemory s t)

/-- R131, R132, over a whole step: the value read is DT before the decay, and the value written is decayed once before the
step ends. -/
def Obligations.TimerStepsDecayAfterMove : Prop :=
  ∀ (s : State) (x : Reg),
    (Executes s (.ldVxDt x) → ∃ t, step s = .next t ∧ t.ready ∧ t.v[x] = s.dt ∧ t.dt.toNat = s.dt.toNat - 1) ∧
    (Executes s (.ldDtVx x) → ∃ t, step s = .next t ∧ t.ready ∧ t.v = s.v ∧ t.dt.toNat = s.v[x].toNat - 1)

/-- R184: DT counts executed instructions. After k completed steps none of which executes LD DT,Vx, DT is the value it had,
less k, stopping at zero. -/
def Obligations.TimerCountsCompletedSteps : Prop :=
  ∀ (run : Nat → State) (k : Nat),
    (∀ j < k, (run j).ready ∧ step (run j) = .next (run (j + 1)) ∧ (run (j + 1)).ready ∧
      ∀ x, ¬ Executes (run j) (.ldDtVx x)) →
    (run k).dt.toNat = (run 0).dt.toNat - k

/-- R22, R133: the key levels are read by SKNP alone. Two states that differ only in what the environment presents, in which
the next step does not execute SKNP, be it that it executes another instruction, that its fetch or its decode raises, or that
it starts faulted, step to states that differ only in that, or stop alike. What the environment presents stands in fields of
the model's own (log entry 2). -/
def Obligations.KeysReadOnlyBySknp : Prop :=
  ∀ (s : State) (input : List (BitVec 16)) (samples : Nat), (∀ x, ¬ Executes s (.sknpVx x)) →
    (∀ s', step s = .next s' →
      step { s with keyInput := input, keySamples := samples } =
        .next { s' with keyInput := input, keySamples := samples }) ∧
    (∀ f, step s = .fault f → step { s with keyInput := input, keySamples := samples } = .fault f)

/-! ## Memory instructions (45_memory_ops.md) -/

/-- R140. LD B,Vx whose three addresses lie in memory stores the hundreds, tens and ones of Vx at I, I+1 and I+2 and changes
no other byte; otherwise it raises `AddressError(I, 3)` and stores nothing. The
whole-range check and the unchanged I are the spec's own choices (D15, D14; log entries 18 and 17). -/
def Obligations.LdBVxStoresDecimalDigits : Prop :=
  ∀ (s : State) (x : Reg), s.mem.wf →
    (s.i.toNat + 3 ≤ 4096 → ∃ t, exec (.ldBVx x) s = .next t ∧
      (t.mem.read s.i.toNat).toNat = s.v[x].toNat / 100 ∧
      (t.mem.read (s.i.toNat + 1)).toNat = s.v[x].toNat / 10 % 10 ∧
      (t.mem.read (s.i.toNat + 2)).toNat = s.v[x].toNat % 10 ∧
      (∀ a : Nat, a < s.i.toNat ∨ s.i.toNat + 3 ≤ a → t.mem.read a = s.mem.read a) ∧
      t.pc.toNat = (s.pc.toNat + 2) % 65536 ∧ t = { s with mem := t.mem, pc := t.pc }) ∧
    (4096 < s.i.toNat + 3 → exec (.ldBVx x) s = .next (raised s (.addressError s.pc s.i 3)))

/-- R141. LD Vx,[I] whose x + 1 addresses lie in memory loads V0 to Vx from I upwards, and changes neither the registers
above x nor I; otherwise it raises `AddressError(I, x + 1)` and loads nothing. The unchanged I and the whole-range check are
the spec's own choices (D14, D15; log entries 17 and 18). -/
def Obligations.LdVxILoadsRegisters : Prop :=
  ∀ (s : State) (x : Reg),
    (s.i.toNat + (x.val + 1) ≤ 4096 → ∃ t, exec (.ldVxI x) s = .next t ∧
      (∀ r : Reg, r ≤ x → t.v[r] = s.mem.read (s.i.toNat + r.val)) ∧ (∀ r : Reg, x < r → t.v[r] = s.v[r]) ∧
      t.pc.toNat = (s.pc.toNat + 2) % 65536 ∧ t = { s with v := t.v, pc := t.pc } ∧ SameMemory s t) ∧
    (4096 < s.i.toNat + (x.val + 1) →
      exec (.ldVxI x) s = .next (raised s (.addressError s.pc s.i (x.val + 1))))

/-- R56: a store over the next instruction is seen by the very next fetch, and a word both of whose bytes were planted by
LD B,Vx is illegal: the step after the store raises `InvalidOpcodeError` with the two digits planted. -/
def Obligations.StoreOverNextInstructionIsFetched : Prop :=
  ∀ (s t : State) (x : Reg), s.mem.wf → Executes s (.ldBVx x) → s.i.toNat = s.pc.toNat + 2 → s.i.toNat + 3 ≤ 4096 →
    step s = .next t →
    step t = .next
      (raised t (.invalidOpcode t.pc (BitVec.ofNat 16 (s.v[x].toNat / 100 * 256 + s.v[x].toNat / 10 % 10))))

/-! ## The end of a run and the host (70_reset_and_hazards.md) -/

/-- R188: at a jump to itself only DT can still change, and only downward; the core stays at the jump. -/
def Obligations.SelfJumpChangesOnlyTimer : Prop :=
  ∀ s : State, s.ready → s.atSelfJump →
    ∃ t, step s = .next t ∧ t.dt.toNat = s.dt.toNat - 1 ∧
      t = { s with dt := t.dt, refreshCount := s.refreshCount + 1, refreshFrame := some s.fb } ∧ t.atSelfJump

/-- R53, R70: a word placed at PC by `withFetchWord` is the word the next step fetches, and no other address changes. -/
def Obligations.PlacedWordIsFetched : Prop :=
  ∀ (s : State) (w : Word), s.mem.wf → s.pc.toNat ≤ 4094 →
    (s.withFetchWord 16 w.toNat).fetch = .ok w ∧ (s.withFetchWord 16 w.toNat).mem.wf ∧
    (∀ a : Nat, a ≠ s.pc.toNat → a ≠ s.pc.toNat + 1 → (s.withFetchWord 16 w.toNat).mem.read a = s.mem.read a) ∧
    s.withFetchWord 16 w.toNat = { s with mem := (s.withFetchWord 16 w.toNat).mem }
end

