-- ==== Sys2Proof/Laws/Encoding.lean ====
section
/-! SUPPORT. The encoding formats as digits in base 16 (R71, R72): a word's fields are its digits, and a format puts them
back. Every fact about decoding an encoded word, or encoding a decoded one, is arithmetic on these. -/

namespace Sys2Proof

/-! ## Fields are digits (R71) -/

theorem fieldOp_toNat (w : Word) : (fieldOp w).toNat = w.toNat / 4096 := by
  have := w.isLt
  simp only [fieldOp, BitVec.extractLsb'_toNat, Nat.shiftRight_eq_div_pow]; omega

theorem fieldX_val (w : Word) : (fieldX w).val = w.toNat / 256 % 16 := by
  show (w.extractLsb' 8 4).toNat = _
  simp only [BitVec.extractLsb'_toNat, Nat.shiftRight_eq_div_pow]

theorem fieldY_val (w : Word) : (fieldY w).val = w.toNat / 16 % 16 := by
  show (w.extractLsb' 4 4).toNat = _
  simp only [BitVec.extractLsb'_toNat, Nat.shiftRight_eq_div_pow]

theorem fieldN_toNat (w : Word) : (fieldN w).toNat = w.toNat % 16 := by
  simp only [fieldN, BitVec.extractLsb'_toNat, Nat.shiftRight_eq_div_pow]; norm_num

theorem fieldKk_toNat (w : Word) : (fieldKk w).toNat = w.toNat % 256 := by
  simp only [fieldKk, BitVec.extractLsb'_toNat, Nat.shiftRight_eq_div_pow]; norm_num

theorem fieldNnn_toNat (w : Word) : (fieldNnn w).toNat = w.toNat % 4096 := by
  simp only [fieldNnn, BitVec.extractLsb'_toNat, Nat.shiftRight_eq_div_pow]; norm_num

@[simp] theorem regField_toNat (x : Reg) : (regField x).toNat = x.val := rfl

/-! ## Formats put the digits together (R72) -/

theorem append_toNat {m n : Nat} (a : BitVec m) (b : BitVec n) : (a ++ b).toNat = a.toNat * 2 ^ n + b.toNat := by
  rw [BitVec.toNat_append, ← Nat.shiftLeft_add_eq_or_of_lt b.isLt, Nat.shiftLeft_eq]

theorem formatNNN_toNat (op : Nibble) (nnn : Addr) : (formatNNN op nnn).toNat = op.toNat * 4096 + nnn.toNat :=
  append_toNat op nnn

theorem formatXKK_toNat (op : Nibble) (x : Reg) (kk : Byte) :
    (formatXKK op x kk).toNat = op.toNat * 4096 + x.val * 256 + kk.toNat := by
  have h : (formatXKK op x kk).toNat = (op ++ regField x).toNat * 2 ^ 8 + kk.toNat := append_toNat (op ++ regField x) kk
  rw [h, append_toNat, regField_toNat]; omega

theorem formatXYN_toNat (op : Nibble) (x y : Reg) (n : Nibble) :
    (formatXYN op x y n).toNat = op.toNat * 4096 + x.val * 256 + y.val * 16 + n.toNat := by
  have h : (formatXYN op x y n).toNat = (op ++ regField x ++ regField y).toNat * 2 ^ 4 + n.toNat :=
    append_toNat (op ++ regField x ++ regField y) n
  have h2 : (op ++ regField x ++ regField y).toNat = (op ++ regField x).toNat * 2 ^ 4 + y.val :=
    append_toNat (op ++ regField x) (regField y)
  rw [h, h2, append_toNat, regField_toNat]; omega

theorem wordBE_toNat (hi lo : Byte) : (wordBE hi lo).toNat = hi.toNat * 256 + lo.toNat := append_toNat hi lo

/-! ## A format's own fields -/

section
variable (op n : Nibble) (x y : Reg) (kk : Byte) (nnn : Addr)

@[simp] theorem fieldOp_formatNNN : fieldOp (formatNNN op nnn) = op := by
  apply BitVec.eq_of_toNat_eq; rw [fieldOp_toNat, formatNNN_toNat]; omega

@[simp] theorem fieldNnn_formatNNN : fieldNnn (formatNNN op nnn) = nnn := by
  apply BitVec.eq_of_toNat_eq; rw [fieldNnn_toNat, formatNNN_toNat]; omega

@[simp] theorem fieldOp_formatXKK : fieldOp (formatXKK op x kk) = op := by
  apply BitVec.eq_of_toNat_eq; rw [fieldOp_toNat, formatXKK_toNat]; omega

@[simp] theorem fieldX_formatXKK : fieldX (formatXKK op x kk) = x := by
  apply Fin.ext; rw [fieldX_val, formatXKK_toNat]; omega

@[simp] theorem fieldKk_formatXKK : fieldKk (formatXKK op x kk) = kk := by
  apply BitVec.eq_of_toNat_eq; rw [fieldKk_toNat, formatXKK_toNat]; omega

@[simp] theorem fieldOp_formatXYN : fieldOp (formatXYN op x y n) = op := by
  apply BitVec.eq_of_toNat_eq; rw [fieldOp_toNat, formatXYN_toNat]; omega

@[simp] theorem fieldX_formatXYN : fieldX (formatXYN op x y n) = x := by
  apply Fin.ext; rw [fieldX_val, formatXYN_toNat]; omega

@[simp] theorem fieldY_formatXYN : fieldY (formatXYN op x y n) = y := by
  apply Fin.ext; rw [fieldY_val, formatXYN_toNat]; omega

@[simp] theorem fieldN_formatXYN : fieldN (formatXYN op x y n) = n := by
  apply BitVec.eq_of_toNat_eq; rw [fieldN_toNat, formatXYN_toNat]; omega

end

/-! ## A word from its fields -/

theorem formatNNN_fields {w : Word} {op : Nibble} (h : fieldOp w = op) : formatNNN op (fieldNnn w) = w := by
  apply BitVec.eq_of_toNat_eq; rw [formatNNN_toNat, fieldNnn_toNat, ← h, fieldOp_toNat]; omega

theorem formatXKK_fields {w : Word} {op : Nibble} (h : fieldOp w = op) : formatXKK op (fieldX w) (fieldKk w) = w := by
  apply BitVec.eq_of_toNat_eq; rw [formatXKK_toNat, fieldX_val, fieldKk_toNat, ← h, fieldOp_toNat]; omega

theorem formatXYN_fields {w : Word} {op : Nibble} (h : fieldOp w = op) :
    formatXYN op (fieldX w) (fieldY w) (fieldN w) = w := by
  apply BitVec.eq_of_toNat_eq
  rw [formatXYN_toNat, fieldX_val, fieldY_val, fieldN_toNat, ← h, fieldOp_toNat]; omega

/-! ## Bytes and words -/

@[simp] theorem wordBE_bytesBE (w : Word) : wordBE ((bytesBE w).getD 0 0) ((bytesBE w).getD 1 0) = w := by
  apply BitVec.eq_of_toNat_eq
  have := w.isLt
  rw [wordBE_toNat]
  simp only [bytesBE, List.getD_cons_zero, List.getD_cons_succ, BitVec.extractLsb'_toNat, Nat.shiftRight_eq_div_pow]
  omega

@[simp] theorem tableWord_toNat (w : Word) : tableWord 16 w.toNat = w := by
  apply BitVec.eq_of_toNat_eq
  have := w.isLt
  simp only [tableWord, BitVec.toNat_ofNat]; omega

/-! ## What a decoded word was (one case per arm of the decoder) -/

theorem decodeClass0_ok {w : Word} {i : Instr} (h : decodeClass0 w = .ok i) : encode i = w := by
  unfold decodeClass0 at h
  split at h
  · cases h; simp_all [encode]
  · split at h
    · cases h; simp_all [encode]
    · cases h

theorem decodeXY0_ok {mk : Reg → Reg → Instr} {w : Word} {i : Instr} (h : decodeXY0 mk w = .ok i) :
    fieldN w = 0 ∧ i = mk (fieldX w) (fieldY w) := by
  unfold decodeXY0 at h
  split at h
  · next hn => cases h; exact ⟨hn, rfl⟩
  · cases h

theorem decodeClassE_ok {w : Word} {i : Instr} (h : decodeClassE w = .ok i) :
    fieldKk w = 0xA1 ∧ i = .sknpVx (fieldX w) := by
  unfold decodeClassE at h
  split at h
  · next hk => cases h; exact ⟨hk, rfl⟩
  · cases h

theorem decodeClassF_ok {w : Word} {i : Instr} (h : decodeClassF w = .ok i) :
    (fieldKk w = 0x07 ∧ i = .ldVxDt (fieldX w)) ∨ (fieldKk w = 0x15 ∧ i = .ldDtVx (fieldX w)) ∨
    (fieldKk w = 0x1E ∧ i = .addIVx (fieldX w)) ∨ (fieldKk w = 0x29 ∧ i = .ldFVx (fieldX w)) ∨
    (fieldKk w = 0x33 ∧ i = .ldBVx (fieldX w)) ∨ (fieldKk w = 0x65 ∧ i = .ldVxI (fieldX w)) := by
  unfold decodeClassF at h
  split_ifs at h with h1 h2 h3 h4 h5 h6 <;> cases h
  · exact .inl ⟨h1, rfl⟩
  · exact .inr (.inl ⟨h2, rfl⟩)
  · exact .inr (.inr (.inl ⟨h3, rfl⟩))
  · exact .inr (.inr (.inr (.inl ⟨h4, rfl⟩)))
  · exact .inr (.inr (.inr (.inr (.inl ⟨h5, rfl⟩))))
  · exact .inr (.inr (.inr (.inr (.inr ⟨h6, rfl⟩))))

/-- A word the decoder rejects is rejected as an illegal word, itself (R76). -/
theorem decodeWord_error {w : Word} {e : DecodeError} (h : decodeWord w = .error e) : e = .illegal w := by
  unfold decodeWord decodeClass0 decodeXY0 decodeClassE decodeClassF at h
  split at h <;> (try split_ifs at h) <;> cases h <;> rfl

end Sys2Proof
end

