-- ==== Sys2Proof/Laws/Framebuffer.lean ====
section
/-! SUPPORT. Pixels: one written pixel and every other one (R19), two grids with the same pixels, and what the inner loop of
`DrawSprite` does (R121). -/

namespace Sys2Proof.Machine

theorem wrapColumn_val (a : Nat) : (wrapColumn a).val = a % 64 := rfl

theorem wrapRow_val (a : Nat) : (wrapRow a).val = a % 32 := rfl

theorem setRowBit_get (row : BitVec 64) (cx c : Fin 64) (on : Bool) :
    (setRowBit row cx on).getLsbD c = if c = cx then on else row.getLsbD c := by
  have hc := c.isLt
  have hiff : cx.val = c.val ↔ c = cx := ⟨fun h => Fin.ext h.symm, fun h => by rw [h]⟩
  by_cases h : c = cx
  · subst h; cases on <;> simp [setRowBit]
  · have h' : ¬ c.val = cx.val := fun e => h (hiff.1 e.symm)
    cases on <;> simp [setRowBit, h, h']

/-- The pixel written reads what was written, every other pixel as before (R19). -/
theorem pixel_setPixel (fb : Framebuffer) (cx c : Fin 64) (cy r : Fin 32) (on : Bool) :
    pixel (setPixel fb cx cy on) c r = if c = cx ∧ r = cy then on else pixel fb c r := by
  unfold pixel setPixel
  by_cases hr : r = cy
  · subst hr
    have : (fb.set r (setRowBit fb[r] cx on))[r] = setRowBit fb[r] cx on := by simp
    rw [this, setRowBit_get]
    simp
  · have hne : (cy : Nat) ≠ r := fun e => hr (Fin.ext e.symm)
    have : (fb.set cy (setRowBit fb[cy] cx on))[r] = fb[r] := by simp [hne]
    rw [this, if_neg (fun h => hr h.2)]

@[simp] theorem pixel_fbClear (c : Fin 64) (r : Fin 32) : pixel fbClear c r = false := by
  simp [pixel, fbClear]

/-- Two grids with the same pixels are the same grid. -/
theorem framebuffer_ext {fb fb' : Framebuffer} (h : ∀ c r, pixel fb c r = pixel fb' c r) : fb = fb' := by
  apply Vector.ext
  intro r hr
  apply BitVec.eq_of_getLsbD_eq
  intro c hc
  exact h ⟨c, hc⟩ ⟨r, hr⟩

/-- The inner loop's body (R121): the pixel under a set sprite bit is inverted, every other one is as it was. -/
theorem drawPixel_pixel (b : Blit) (cx c : Fin 64) (cy r : Fin 32) (s : Bool) :
    pixel (drawPixel b cx cy s).1 c r = if c = cx ∧ r = cy then (pixel b.1 cx cy ^^ s) else pixel b.1 c r :=
  pixel_setPixel _ _ _ _ _ _

theorem drawPixel_collision (b : Blit) (cx : Fin 64) (cy : Fin 32) (s : Bool) :
    (drawPixel b cx cy s).2 = (b.2 || (s && pixel b.1 cx cy)) := rfl

/-- The last `m` columns of a sprite row (R121): a pixel is inverted exactly when one of their set bits lands on it. -/
theorem drawColumns_pixel (x0 : Nat) (cy : Fin 32) (row : Byte) (c : Fin 64) (r : Fin 32) (m : Nat) :
    ∀ (k : Nat) (b : Blit), k + m = 8 →
    (pixel (drawColumns x0 cy row (List.range' k m) b).1 c r = true ↔ ¬ (pixel b.1 c r = true ↔
      r = cy ∧ ∃ j, k ≤ j ∧ j < 8 ∧ (x0 + j) % 64 = c.val ∧ spriteBit row j = true)) := by
  induction m with
  | zero =>
    intro k b hk
    have : ¬ (r = cy ∧ ∃ j, k ≤ j ∧ j < 8 ∧ (x0 + j) % 64 = c.val ∧ spriteBit row j = true) := by
      rintro ⟨-, j, h1, h2, -⟩
      omega
    simp [drawColumns, this]
  | succ m ih =>
    intro k b hk
    rw [List.range'_succ, drawColumns, ih (k + 1) _ (by omega), drawPixel_pixel]
    by_cases hc : c = wrapColumn (x0 + k) ∧ r = cy
    · obtain ⟨rfl, rfl⟩ := hc
      have hno : ¬ ∃ j, k + 1 ≤ j ∧ j < 8 ∧ (x0 + j) % 64 = (wrapColumn (x0 + k)).val ∧ spriteBit row j = true := by
        rintro ⟨j, h1, h2, h3, -⟩
        rw [wrapColumn_val] at h3
        omega
      have hiff : (∃ j, k ≤ j ∧ j < 8 ∧ (x0 + j) % 64 = (wrapColumn (x0 + k)).val ∧ spriteBit row j = true) ↔
          spriteBit row k = true := by
        refine ⟨?_, fun h => ⟨k, le_refl _, by omega, rfl, h⟩⟩
        rintro ⟨j, h1, h2, h3, h4⟩
        rw [wrapColumn_val] at h3
        have : j = k := by omega
        exact this ▸ h4
      rw [eq_false hno, hiff, if_pos ⟨rfl, rfl⟩]
      simp
    · have hiff : (r = cy ∧ ∃ j, k + 1 ≤ j ∧ j < 8 ∧ (x0 + j) % 64 = c.val ∧ spriteBit row j = true) ↔
          (r = cy ∧ ∃ j, k ≤ j ∧ j < 8 ∧ (x0 + j) % 64 = c.val ∧ spriteBit row j = true) := by
        refine ⟨fun ⟨h0, j, h1, h2⟩ => ⟨h0, j, by omega, h2⟩, fun ⟨h0, j, h1, h2, h3, h4⟩ => ⟨h0, j, ?_, h2, h3, h4⟩⟩
        rcases Nat.lt_or_ge k j with h | h
        · exact h
        · have : j = k := by omega
          exact absurd ⟨Fin.ext (this ▸ h3.symm), h0⟩ hc
      rw [if_neg hc, hiff]

/-- The last `m` columns of a sprite row (R121): a collision is reported exactly when one was before or one of their set bits
falls on a lit pixel. -/
theorem drawColumns_collision (x0 : Nat) (cy : Fin 32) (row : Byte) (m : Nat) : ∀ (k : Nat) (b : Blit), k + m = 8 →
    ((drawColumns x0 cy row (List.range' k m) b).2 = true ↔
      b.2 = true ∨ ∃ j, k ≤ j ∧ j < 8 ∧ spriteBit row j = true ∧ pixel b.1 (wrapColumn (x0 + j)) cy = true) := by
  induction m with
  | zero =>
    intro k b hk
    have : ¬ ∃ j, k ≤ j ∧ j < 8 ∧ spriteBit row j = true ∧ pixel b.1 (wrapColumn (x0 + j)) cy = true := by
      rintro ⟨j, h1, h2, -⟩
      omega
    simp [drawColumns, this]
  | succ m ih =>
    intro k b hk
    have other (j : Nat) (h1 : k < j) (h2 : j < 8) (s : Bool) :
        pixel (drawPixel b (wrapColumn (x0 + k)) cy s).1 (wrapColumn (x0 + j)) cy =
          pixel b.1 (wrapColumn (x0 + j)) cy := by
      rw [drawPixel_pixel, if_neg]
      rintro ⟨h, -⟩
      have := congrArg Fin.val h
      rw [wrapColumn_val, wrapColumn_val] at this
      omega
    rw [List.range'_succ, drawColumns, ih (k + 1) _ (by omega), drawPixel_collision]
    constructor
    · rintro (h | ⟨j, h1, h2, h3, h4⟩)
      · rcases Bool.or_eq_true_iff.1 h with h | h
        · exact .inl h
        · exact .inr ⟨k, le_refl _, by omega, (Bool.and_eq_true_iff.1 h).1, (Bool.and_eq_true_iff.1 h).2⟩
      · exact .inr ⟨j, by omega, h2, h3, other j (by omega) h2 _ ▸ h4⟩
    · rintro (h | ⟨j, h1, h2, h3, h4⟩)
      · exact .inl (by simp [h])
      · rcases Nat.lt_or_ge k j with h | h
        · exact .inr ⟨j, h, h2, h3, (other j h h2 _).symm ▸ h4⟩
        · have : j = k := by omega
          subst this
          exact .inl (by simp [h3, h4])

end Sys2Proof.Machine
end

