-- ==== Sys2Proof/Laws/Memory.lean ====
section
/-! SUPPORT. Memory: a read after a write (R44), and the canonical form, which every memory operation keeps. -/

namespace Sys2Proof.Machine

/-! ## Reading -/

@[simp] theorem Memory.read_nil (a : Nat) : Memory.read [] a = Memory.initial a := rfl

/-- An address below every listed one reads as the reset contents. -/
theorem Memory.read_below {m : Memory} {a : Nat} (h : ∀ c ∈ m, a < c.1) : m.read a = Memory.initial a := by
  induction m with
  | nil => rfl
  | cons c rest ih =>
    have hc := h c (by simp)
    rw [show c = (c.1, c.2) from rfl, Memory.read, if_neg (by omega)]
    exact ih fun d hd => h d (by simp [hd])

theorem Memory.read_cons (k : Nat) (b : Byte) (rest : Memory) (a : Nat) :
    Memory.read ((k, b) :: rest) a = if k = a then b else rest.read a := rfl

/-- Both forms of `consCell` read the same, if nothing behind the head lists its address. -/
theorem Memory.read_consCell {k : Nat} {b : Byte} {rest : Memory} (h : ∀ c ∈ rest, k < c.1) (a : Nat) :
    (Memory.consCell k b rest).read a = if k = a then b else rest.read a := by
  unfold Memory.consCell
  split
  · next hb =>
    split
    · next he => subst he; rw [Memory.read_below h, hb]
    · rfl
  · rfl

/-! ## The canonical form -/

theorem Memory.wf_nil : Memory.wf [] := by simp [Memory.wf]

theorem Memory.wf_cons_iff {k : Nat} {b : Byte} {rest : Memory} :
    Memory.wf ((k, b) :: rest) ↔
      (∀ c ∈ rest, k < c.1) ∧ k < Config.memSize ∧ b ≠ Memory.initial k ∧ Memory.wf rest := by
  simp only [Memory.wf, List.pairwise_cons, List.forall_mem_cons]
  tauto

theorem Memory.wf_tail {c : Host.Cell} {rest : Memory} (h : Memory.wf (c :: rest)) : rest.wf :=
  (Memory.wf_cons_iff.1 (show Memory.wf ((c.1, c.2) :: rest) from h)).2.2.2

theorem Memory.wf_consCell {k : Nat} {b : Byte} {rest : Memory} (hk : k < Config.memSize)
    (hlt : ∀ c ∈ rest, k < c.1) (h : rest.wf) : (Memory.consCell k b rest).wf := by
  unfold Memory.consCell
  split
  · exact h
  · next hb => exact Memory.wf_cons_iff.2 ⟨hlt, hk, hb, h⟩

/-- What a write lists comes from the old list or is the address written. -/
theorem Memory.mem_write {m : Memory} {a : Nat} {b : Byte} {c : Host.Cell} (h : c ∈ m.write a b) :
    c.1 = a ∨ c ∈ m := by
  induction m with
  | nil =>
    unfold Memory.write Memory.consCell at h
    split at h
    · simp at h
    · simp only [List.mem_singleton] at h; exact .inl (by rw [h])
  | cons d rest ih =>
    obtain ⟨k, e⟩ := d
    unfold Memory.write Memory.consCell at h
    split_ifs at h <;> simp only [List.mem_cons] at h ⊢
    · exact .inr h
    · rcases h with rfl | h
      · exact .inl rfl
      · exact .inr h
    · exact .inr (.inr h)
    · rcases h with rfl | h
      · exact .inl rfl
      · exact .inr (.inr h)
    · rcases h with rfl | h
      · exact .inr (.inl rfl)
      · exact (ih h).imp id .inr

/-- A write inside the memory keeps the canonical form. -/
theorem Memory.wf_write {m : Memory} {a : Nat} (b : Byte) (h : m.wf) (ha : a < Config.memSize) :
    (m.write a b).wf := by
  induction m with
  | nil => exact Memory.wf_consCell ha (by simp) Memory.wf_nil
  | cons d rest ih =>
    obtain ⟨k, e⟩ := d
    obtain ⟨hlt, hk, he, hr⟩ := Memory.wf_cons_iff.1 h
    unfold Memory.write
    split_ifs with h1 h2
    · refine Memory.wf_consCell ha ?_ h
      rintro c hc
      rcases List.mem_cons.1 hc with rfl | hc
      · exact h1
      · exact h1.trans (hlt c hc)
    · exact Memory.wf_consCell ha (fun c hc => h2 ▸ hlt c hc) hr
    · refine Memory.wf_cons_iff.2 ⟨fun c hc => ?_, hk, he, ih hr⟩
      rcases Memory.mem_write hc with h' | h'
      · omega
      · exact hlt c h'

/-- Writing a run of bytes that fits keeps the canonical form (R44). -/
theorem Memory.wf_writeBytes {m : Memory} {a : Nat} {bytes : List Byte} (h : m.wf)
    (ha : a + bytes.length ≤ Config.memSize) : (m.writeBytes a bytes).wf := by
  induction bytes generalizing m a with
  | nil => exact h
  | cons b bytes ih =>
    simp only [List.length_cons] at ha
    exact ih (Memory.wf_write b h (by omega)) (by omega)

/-! ## Reading after a write -/

/-- A read after a write: the byte at the address written, every other address as before (R44). -/
theorem Memory.read_write {m : Memory} (h : m.wf) (a : Nat) (b : Byte) (a' : Nat) :
    (m.write a b).read a' = if a = a' then b else m.read a' := by
  induction m with
  | nil => exact Memory.read_consCell (by simp) a'
  | cons d rest ih =>
    obtain ⟨k, e⟩ := d
    obtain ⟨hlt, -, -, hr⟩ := Memory.wf_cons_iff.1 h
    unfold Memory.write
    by_cases h1 : a < k
    · rw [if_pos h1, Memory.read_consCell]
      rintro c hc
      rcases List.mem_cons.1 hc with rfl | hc
      · exact h1
      · exact h1.trans (hlt c hc)
    · rw [if_neg h1]
      by_cases h2 : a = k
      · rw [if_pos h2, Memory.read_consCell (fun c hc => h2 ▸ hlt c hc), Memory.read_cons]
        split_ifs <;> first | rfl | omega
      · rw [if_neg h2, Memory.read_cons, Memory.read_cons, ih hr]
        split_ifs <;> first | rfl | omega

theorem Memory.read_write_same {m : Memory} (h : m.wf) (a : Nat) (b : Byte) : (m.write a b).read a = b := by
  rw [Memory.read_write h, if_pos rfl]

theorem Memory.read_write_other {m : Memory} (h : m.wf) {a a' : Nat} (b : Byte) (hne : a ≠ a') :
    (m.write a b).read a' = m.read a' := by
  rw [Memory.read_write h, if_neg hne]

/-- Reading after a run of bytes was written: byte `a' - a` of the run inside it, the old byte outside (R44). -/
theorem Memory.read_writeBytes {m : Memory} {a : Nat} {bytes : List Byte} (h : m.wf)
    (ha : a + bytes.length ≤ Config.memSize) (a' : Nat) :
    (m.writeBytes a bytes).read a' = if a ≤ a' then bytes[a' - a]?.getD (m.read a') else m.read a' := by
  induction bytes generalizing m a with
  | nil => simp [Memory.writeBytes]
  | cons b bytes ih =>
    simp only [List.length_cons] at ha
    rw [Memory.writeBytes, ih (Memory.wf_write b h (by omega)) (by omega), Memory.read_write h]
    rcases lt_trichotomy a a' with hlt | heq | hgt
    · rw [if_pos (by omega), if_neg (by omega), if_pos (by omega), show a' - a = (a' - (a + 1)) + 1 by omega,
        List.getElem?_cons_succ]
    · subst heq; rw [if_neg (by omega), if_pos rfl, if_pos (Nat.le_refl _)]; simp
    · rw [if_neg (by omega), if_neg (by omega), if_neg (by omega)]

theorem Memory.read_writeBytes_inside {m : Memory} {a : Nat} {bytes : List Byte} (h : m.wf)
    (ha : a + bytes.length ≤ Config.memSize) {k : Nat} (hk : k < bytes.length) :
    (m.writeBytes a bytes).read (a + k) = bytes[k] := by
  rw [Memory.read_writeBytes h ha, if_pos (by omega), show a + k - a = k by omega, List.getElem?_eq_getElem hk]; rfl

theorem Memory.read_writeBytes_outside {m : Memory} {a : Nat} {bytes : List Byte} (h : m.wf)
    (ha : a + bytes.length ≤ Config.memSize) {a' : Nat} (hout : a' < a ∨ a + bytes.length ≤ a') :
    (m.writeBytes a bytes).read a' = m.read a' := by
  rw [Memory.read_writeBytes h ha]
  split
  · rw [List.getElem?_eq_none (by omega)]; rfl
  · rfl

/-! ## Runs of bytes -/

@[simp] theorem Memory.readBytes_length (m : Memory) (a n : Nat) : (m.readBytes a n).length = n := by
  simp [Memory.readBytes]

@[simp] theorem Memory.readBytes_get? (m : Memory) (a n k : Nat) :
    (m.readBytes a n)[k]? = if k < n then some (m.read (a + k)) else none := by
  unfold Memory.readBytes
  split <;> simp_all

@[simp] theorem Memory.readBytes_getElem (m : Memory) (a n k : Nat) (h : k < (m.readBytes a n).length) :
    (m.readBytes a n)[k] = m.read (a + k) := by
  simp [Memory.readBytes]

@[simp] theorem Memory.readBytes_two (m : Memory) (a : Nat) : m.readBytes a 2 = [m.read a, m.read (a + 1)] := rfl

/-- A blank memory reads as zero everywhere (R180). -/
theorem Memory.read_blank (a : Nat) : Memory.blank.read a = 0 := by
  unfold Memory.blank
  rw [Memory.read_writeBytes Memory.wf_nil (by simp [Config.fontSize, Config.memSize])]
  rw [List.getElem?_replicate]
  split_ifs with h1 h2
  · rfl
  · simp [Memory.initial, show ¬ a < 80 by simpa using h2]
  · omega

theorem Memory.wf_blank : Memory.blank.wf :=
  Memory.wf_writeBytes Memory.wf_nil (by simp [Config.fontSize, Config.memSize])

end Sys2Proof.Machine
end

