-- ==== Sys2Proof/Laws/State.lean ====
section
/-! SUPPORT. One lemma per field per named update of the state, true by unfolding, so that no later proof unfolds a record
update. -/

namespace Sys2Proof.Machine

section
variable (s : State)

/-! ## `State.writeV` -/

@[simp] theorem State.writeV_v (x : Reg) (b : Byte) : (s.writeV x b).v = s.v.set x b := rfl
@[simp] theorem State.writeV_i (x : Reg) (b : Byte) : (s.writeV x b).i = s.i := rfl
@[simp] theorem State.writeV_dt (x : Reg) (b : Byte) : (s.writeV x b).dt = s.dt := rfl
@[simp] theorem State.writeV_pc (x : Reg) (b : Byte) : (s.writeV x b).pc = s.pc := rfl
@[simp] theorem State.writeV_sp (x : Reg) (b : Byte) : (s.writeV x b).sp = s.sp := rfl
@[simp] theorem State.writeV_stack (x : Reg) (b : Byte) : (s.writeV x b).stack = s.stack := rfl
@[simp] theorem State.writeV_mem (x : Reg) (b : Byte) : (s.writeV x b).mem = s.mem := rfl
@[simp] theorem State.writeV_fb (x : Reg) (b : Byte) : (s.writeV x b).fb = s.fb := rfl
@[simp] theorem State.writeV_fault (x : Reg) (b : Byte) : (s.writeV x b).fault = s.fault := rfl
@[simp] theorem State.writeV_keyInput (x : Reg) (b : Byte) : (s.writeV x b).keyInput = s.keyInput := rfl
@[simp] theorem State.writeV_keySamples (x : Reg) (b : Byte) : (s.writeV x b).keySamples = s.keySamples := rfl
@[simp] theorem State.writeV_refreshCount (x : Reg) (b : Byte) : (s.writeV x b).refreshCount = s.refreshCount := rfl
@[simp] theorem State.writeV_refreshFrame (x : Reg) (b : Byte) : (s.writeV x b).refreshFrame = s.refreshFrame := rfl

/-! ## `State.loadV` -/

theorem State.loadV_v (bytes : List Byte) : (s.loadV bytes).v = Vector.ofFn fun r : Fin 16 => bytes[r.val]?.getD s.v[r] := rfl
@[simp] theorem State.loadV_i (bytes : List Byte) : (s.loadV bytes).i = s.i := by dsimp only [State.loadV]
@[simp] theorem State.loadV_dt (bytes : List Byte) : (s.loadV bytes).dt = s.dt := by dsimp only [State.loadV]
@[simp] theorem State.loadV_pc (bytes : List Byte) : (s.loadV bytes).pc = s.pc := by dsimp only [State.loadV]
@[simp] theorem State.loadV_sp (bytes : List Byte) : (s.loadV bytes).sp = s.sp := by dsimp only [State.loadV]
@[simp] theorem State.loadV_stack (bytes : List Byte) : (s.loadV bytes).stack = s.stack := by dsimp only [State.loadV]
@[simp] theorem State.loadV_mem (bytes : List Byte) : (s.loadV bytes).mem = s.mem := by dsimp only [State.loadV]
@[simp] theorem State.loadV_fb (bytes : List Byte) : (s.loadV bytes).fb = s.fb := by dsimp only [State.loadV]
@[simp] theorem State.loadV_fault (bytes : List Byte) : (s.loadV bytes).fault = s.fault := by dsimp only [State.loadV]
@[simp] theorem State.loadV_keyInput (bytes : List Byte) : (s.loadV bytes).keyInput = s.keyInput := by dsimp only [State.loadV]
@[simp] theorem State.loadV_keySamples (bytes : List Byte) : (s.loadV bytes).keySamples = s.keySamples := by dsimp only [State.loadV]
@[simp] theorem State.loadV_refreshCount (bytes : List Byte) : (s.loadV bytes).refreshCount = s.refreshCount := by dsimp only [State.loadV]
@[simp] theorem State.loadV_refreshFrame (bytes : List Byte) : (s.loadV bytes).refreshFrame = s.refreshFrame := by dsimp only [State.loadV]

/-! ## `State.setPc` -/

@[simp] theorem State.setPc_v (target : Word) : (s.setPc target).v = s.v := rfl
@[simp] theorem State.setPc_i (target : Word) : (s.setPc target).i = s.i := rfl
@[simp] theorem State.setPc_dt (target : Word) : (s.setPc target).dt = s.dt := rfl
@[simp] theorem State.setPc_pc (target : Word) : (s.setPc target).pc = target := rfl
@[simp] theorem State.setPc_sp (target : Word) : (s.setPc target).sp = s.sp := rfl
@[simp] theorem State.setPc_stack (target : Word) : (s.setPc target).stack = s.stack := rfl
@[simp] theorem State.setPc_mem (target : Word) : (s.setPc target).mem = s.mem := rfl
@[simp] theorem State.setPc_fb (target : Word) : (s.setPc target).fb = s.fb := rfl
@[simp] theorem State.setPc_fault (target : Word) : (s.setPc target).fault = s.fault := rfl
@[simp] theorem State.setPc_keyInput (target : Word) : (s.setPc target).keyInput = s.keyInput := rfl
@[simp] theorem State.setPc_keySamples (target : Word) : (s.setPc target).keySamples = s.keySamples := rfl
@[simp] theorem State.setPc_refreshCount (target : Word) : (s.setPc target).refreshCount = s.refreshCount := rfl
@[simp] theorem State.setPc_refreshFrame (target : Word) : (s.setPc target).refreshFrame = s.refreshFrame := rfl

/-! ## `State.push` -/

@[simp] theorem State.push_v (k : Fin 16) : (s.push k).v = s.v := rfl
@[simp] theorem State.push_i (k : Fin 16) : (s.push k).i = s.i := rfl
@[simp] theorem State.push_dt (k : Fin 16) : (s.push k).dt = s.dt := rfl
@[simp] theorem State.push_pc (k : Fin 16) : (s.push k).pc = s.pc := rfl
@[simp] theorem State.push_sp (k : Fin 16) : (s.push k).sp = s.sp + 1 := rfl
@[simp] theorem State.push_stack (k : Fin 16) : (s.push k).stack = s.stack.set k s.nextPc := rfl
@[simp] theorem State.push_mem (k : Fin 16) : (s.push k).mem = s.mem := rfl
@[simp] theorem State.push_fb (k : Fin 16) : (s.push k).fb = s.fb := rfl
@[simp] theorem State.push_fault (k : Fin 16) : (s.push k).fault = s.fault := rfl
@[simp] theorem State.push_keyInput (k : Fin 16) : (s.push k).keyInput = s.keyInput := rfl
@[simp] theorem State.push_keySamples (k : Fin 16) : (s.push k).keySamples = s.keySamples := rfl
@[simp] theorem State.push_refreshCount (k : Fin 16) : (s.push k).refreshCount = s.refreshCount := rfl
@[simp] theorem State.push_refreshFrame (k : Fin 16) : (s.push k).refreshFrame = s.refreshFrame := rfl

/-! ## `State.pop` -/

@[simp] theorem State.pop_v (k : Fin 16) : (s.pop k).v = s.v := rfl
@[simp] theorem State.pop_i (k : Fin 16) : (s.pop k).i = s.i := rfl
@[simp] theorem State.pop_dt (k : Fin 16) : (s.pop k).dt = s.dt := rfl
@[simp] theorem State.pop_pc (k : Fin 16) : (s.pop k).pc = s.stack[k] := rfl
@[simp] theorem State.pop_sp (k : Fin 16) : (s.pop k).sp = s.sp - 1 := rfl
@[simp] theorem State.pop_stack (k : Fin 16) : (s.pop k).stack = s.stack := rfl
@[simp] theorem State.pop_mem (k : Fin 16) : (s.pop k).mem = s.mem := rfl
@[simp] theorem State.pop_fb (k : Fin 16) : (s.pop k).fb = s.fb := rfl
@[simp] theorem State.pop_fault (k : Fin 16) : (s.pop k).fault = s.fault := rfl
@[simp] theorem State.pop_keyInput (k : Fin 16) : (s.pop k).keyInput = s.keyInput := rfl
@[simp] theorem State.pop_keySamples (k : Fin 16) : (s.pop k).keySamples = s.keySamples := rfl
@[simp] theorem State.pop_refreshCount (k : Fin 16) : (s.pop k).refreshCount = s.refreshCount := rfl
@[simp] theorem State.pop_refreshFrame (k : Fin 16) : (s.pop k).refreshFrame = s.refreshFrame := rfl

/-! ## `State.nextSample` -/

@[simp] theorem State.nextSample_v : (s.nextSample).v = s.v := rfl
@[simp] theorem State.nextSample_i : (s.nextSample).i = s.i := rfl
@[simp] theorem State.nextSample_dt : (s.nextSample).dt = s.dt := rfl
@[simp] theorem State.nextSample_pc : (s.nextSample).pc = s.pc := rfl
@[simp] theorem State.nextSample_sp : (s.nextSample).sp = s.sp := rfl
@[simp] theorem State.nextSample_stack : (s.nextSample).stack = s.stack := rfl
@[simp] theorem State.nextSample_mem : (s.nextSample).mem = s.mem := rfl
@[simp] theorem State.nextSample_fb : (s.nextSample).fb = s.fb := rfl
@[simp] theorem State.nextSample_fault : (s.nextSample).fault = s.fault := rfl
@[simp] theorem State.nextSample_keyInput : (s.nextSample).keyInput = s.keyInput.tail := rfl
@[simp] theorem State.nextSample_keySamples : (s.nextSample).keySamples = s.keySamples + 1 := rfl
@[simp] theorem State.nextSample_refreshCount : (s.nextSample).refreshCount = s.refreshCount := rfl
@[simp] theorem State.nextSample_refreshFrame : (s.nextSample).refreshFrame = s.refreshFrame := rfl

/-! ## `State.decay` -/

@[simp] theorem State.decay_v : (s.decay).v = s.v := rfl
@[simp] theorem State.decay_i : (s.decay).i = s.i := rfl
@[simp] theorem State.decay_dt : (s.decay).dt = decayed s.dt := rfl
@[simp] theorem State.decay_pc : (s.decay).pc = s.pc := rfl
@[simp] theorem State.decay_sp : (s.decay).sp = s.sp := rfl
@[simp] theorem State.decay_stack : (s.decay).stack = s.stack := rfl
@[simp] theorem State.decay_mem : (s.decay).mem = s.mem := rfl
@[simp] theorem State.decay_fb : (s.decay).fb = s.fb := rfl
@[simp] theorem State.decay_fault : (s.decay).fault = s.fault := rfl
@[simp] theorem State.decay_keyInput : (s.decay).keyInput = s.keyInput := rfl
@[simp] theorem State.decay_keySamples : (s.decay).keySamples = s.keySamples := rfl
@[simp] theorem State.decay_refreshCount : (s.decay).refreshCount = s.refreshCount := rfl
@[simp] theorem State.decay_refreshFrame : (s.decay).refreshFrame = s.refreshFrame := rfl

/-! ## `State.emitRefresh` -/

@[simp] theorem State.emitRefresh_v : (s.emitRefresh).v = s.v := rfl
@[simp] theorem State.emitRefresh_i : (s.emitRefresh).i = s.i := rfl
@[simp] theorem State.emitRefresh_dt : (s.emitRefresh).dt = s.dt := rfl
@[simp] theorem State.emitRefresh_pc : (s.emitRefresh).pc = s.pc := rfl
@[simp] theorem State.emitRefresh_sp : (s.emitRefresh).sp = s.sp := rfl
@[simp] theorem State.emitRefresh_stack : (s.emitRefresh).stack = s.stack := rfl
@[simp] theorem State.emitRefresh_mem : (s.emitRefresh).mem = s.mem := rfl
@[simp] theorem State.emitRefresh_fb : (s.emitRefresh).fb = s.fb := rfl
@[simp] theorem State.emitRefresh_fault : (s.emitRefresh).fault = s.fault := rfl
@[simp] theorem State.emitRefresh_keyInput : (s.emitRefresh).keyInput = s.keyInput := rfl
@[simp] theorem State.emitRefresh_keySamples : (s.emitRefresh).keySamples = s.keySamples := rfl
@[simp] theorem State.emitRefresh_refreshCount : (s.emitRefresh).refreshCount = s.refreshCount + 1 := rfl
@[simp] theorem State.emitRefresh_refreshFrame : (s.emitRefresh).refreshFrame = some s.fb := rfl

/-! ## Operands and flags -/

@[simp] theorem State.readV_eq (x : Reg) : s.readV x = s.v[x] := rfl

@[simp] theorem addrOperand_toNat (nnn : Addr) : (addrOperand nnn).toNat = nnn.toNat := by
  have := nnn.isLt
  simp only [addrOperand, BitVec.toNat_setWidth]; omega

@[simp] theorem byteOperand_toNat (b : Byte) : (byteOperand b).toNat = b.toNat := by
  have := b.isLt
  simp only [byteOperand, BitVec.toNat_setWidth]; omega

theorem State.nextPc_toNat : s.nextPc.toNat = (s.pc.toNat + 2) % 65536 := by
  simp [State.nextPc, BitVec.toNat_add]

theorem State.skipPc_toNat : s.skipPc.toNat = (s.pc.toNat + 4) % 65536 := by
  simp [State.skipPc, BitVec.toNat_add]

theorem decayed_toNat (dt : Byte) : (decayed dt).toNat = dt.toNat - 1 := by
  unfold decayed
  split
  · simp_all
  · next h =>
    have h0 : dt.toNat ≠ 0 := fun h0 => h (BitVec.eq_of_toNat_eq (by simpa using h0))
    have := dt.isLt
    rw [BitVec.toNat_sub, show (1 : Byte).toNat = 1 from rfl]; omega

/-- A register just written reads what was written (R11). -/
@[simp] theorem State.readV_writeV_same (x : Reg) (b : Byte) : (s.writeV x b).v[x] = b := by
  simp [State.writeV]

/-- A register not written keeps its value (R11). -/
theorem State.readV_writeV_other {x r : Reg} (b : Byte) (h : r ≠ x) : (s.writeV x b).v[r] = s.v[r] := by
  have h' : (x : Nat) ≠ r := fun e => h (Fin.ext e.symm)
  simp [State.writeV, h']

/-- `LD Vx,[I]`'s register file: register `k` takes byte `k` where there is one (R141). -/
@[simp] theorem State.loadV_getElem (bytes : List Byte) (k : Nat) (h : k < 16) :
    (s.loadV bytes).v[k] = bytes[k]?.getD s.v[k] := by
  simp [State.loadV]

/-- The end of a completed cycle (R94, R95). -/
theorem State.endCycle_ready {s : State} (h : s.fault = none) : s.endCycle = s.decay.emitRefresh := by
  simp [State.endCycle, h]

/-- A step that raised reaches neither the decay nor the refresh (R96). -/
theorem State.endCycle_faulted {s : State} (h : s.fault ≠ none) : s.endCycle = s := by
  have : s.fault.isSome := Option.isSome_iff_ne_none.2 h
  simp [State.endCycle, this]

@[simp] theorem State.endCycle_fault : s.endCycle.fault = s.fault := by
  unfold State.endCycle; split <;> rfl

end

end Sys2Proof.Machine
end

