-- ==== Sys2Proof/Laws/Ops.lean ====
section
/-! SUPPORT. One lemma per shared operation, saying everything it can do. -/

namespace Sys2Proof.Machine

/-! ## The address check (R42) -/

theorem accessOk_iff {a n : Nat} : accessOk a n = true ↔ n = 0 ∨ a + n ≤ 4096 := by
  simp [accessOk, Config.memSize]

theorem accessOk_eq_false_iff {a n : Nat} : accessOk a n = false ↔ n ≠ 0 ∧ 4096 < a + n := by
  simp [accessOk, Config.memSize]

/-- Everything `MemRead` can do (R43). -/
theorem State.memRead_cases (s : State) (addr : Word) (n : Nat) :
    ((n = 0 ∨ addr.toNat + n ≤ 4096) ∧ s.memRead addr n = .ok (s.mem.readBytes addr.toNat n)) ∨
    ((n ≠ 0 ∧ 4096 < addr.toNat + n) ∧ s.memRead addr n = .error (.addressError s.pc addr n)) := by
  unfold State.memRead
  split
  · next h => exact .inl ⟨accessOk_iff.1 h, rfl⟩
  · next h => exact .inr ⟨accessOk_eq_false_iff.1 (by simpa using h), rfl⟩

theorem State.memRead_ok {s : State} {addr : Word} {n : Nat} (h : n = 0 ∨ addr.toNat + n ≤ 4096) :
    s.memRead addr n = .ok (s.mem.readBytes addr.toNat n) := by
  rw [State.memRead, if_pos (accessOk_iff.2 h)]

theorem State.memRead_error {s : State} {addr : Word} {n : Nat} (hn : n ≠ 0) (h : 4096 < addr.toNat + n) :
    s.memRead addr n = .error (.addressError s.pc addr n) := by
  rw [State.memRead, if_neg (by simp [accessOk_eq_false_iff.2 ⟨hn, h⟩])]

/-- Everything `MemWrite` can do (R44). -/
theorem State.memWrite_cases (s : State) (addr : Word) (bytes : List Byte) :
    ((bytes.length = 0 ∨ addr.toNat + bytes.length ≤ 4096) ∧
      s.memWrite addr bytes = .ok (s.mem.writeBytes addr.toNat bytes)) ∨
    ((bytes.length ≠ 0 ∧ 4096 < addr.toNat + bytes.length) ∧
      s.memWrite addr bytes = .error (.addressError s.pc addr bytes.length)) := by
  unfold State.memWrite
  split
  · next h => exact .inl ⟨accessOk_iff.1 h, rfl⟩
  · next h => exact .inr ⟨accessOk_eq_false_iff.1 (by simpa using h), rfl⟩

theorem State.memWrite_ok {s : State} {addr : Word} {bytes : List Byte}
    (h : bytes.length = 0 ∨ addr.toNat + bytes.length ≤ 4096) :
    s.memWrite addr bytes = .ok (s.mem.writeBytes addr.toNat bytes) := by
  rw [State.memWrite, if_pos (accessOk_iff.2 h)]

theorem State.memWrite_error {s : State} {addr : Word} {bytes : List Byte} (hn : bytes.length ≠ 0)
    (h : 4096 < addr.toNat + bytes.length) :
    s.memWrite addr bytes = .error (.addressError s.pc addr bytes.length) := by
  rw [State.memWrite, if_neg (by simp [accessOk_eq_false_iff.2 ⟨hn, h⟩])]

/-- Everything the fetch can do (R91). -/
theorem State.fetch_cases (s : State) :
    (s.pc.toNat ≤ 4094 ∧ s.fetch = .ok (wordBE (s.mem.read s.pc.toNat) (s.mem.read (s.pc.toNat + 1)))) ∨
    (4095 ≤ s.pc.toNat ∧ s.fetch = .error (.addressError s.pc s.pc 2)) := by
  rcases s.memRead_cases s.pc 2 with ⟨h, e⟩ | ⟨h, e⟩
  · refine .inl ⟨by omega, ?_⟩
    rw [State.fetch, State.memReadWordBE, e, Memory.readBytes_two]; rfl
  · refine .inr ⟨by omega, ?_⟩
    rw [State.fetch, State.memReadWordBE, e]; rfl

theorem State.fetch_ok {s : State} {w : Word} (h : s.fetch = .ok w) :
    s.pc.toNat ≤ 4094 ∧ w = wordBE (s.mem.read s.pc.toNat) (s.mem.read (s.pc.toNat + 1)) := by
  rcases s.fetch_cases with ⟨hp, e⟩ | ⟨-, e⟩
  · rw [e] at h; cases h; exact ⟨hp, rfl⟩
  · rw [e] at h; cases h

/-- The fetch reads PC and memory and nothing else. -/
theorem State.fetch_congr {s t : State} (hp : t.pc = s.pc) (hm : t.mem = s.mem) : t.fetch = s.fetch := by
  simp only [State.fetch, State.memReadWordBE, State.memRead, hp, hm]

/-! ## Raising (R160) -/

/-- A raise is a next state in which the latch alone has changed. -/
@[simp] theorem State.raise_eq (s : State) (r : FaultRecord) : s.raise r = .next { s with fault := some r } := rfl

@[simp] theorem State.orRaise_ok {α : Type} (s : State) (a : α) (go : α → Result) : s.orRaise (.ok a) go = go a := rfl

@[simp] theorem State.orRaise_error {α : Type} (s : State) (r : FaultRecord) (go : α → Result) :
    s.orRaise (.error r) go = .next { s with fault := some r } := rfl

/-! ## PC (R93, R99) -/

@[simp] theorem State.advance_eq (s before : State) : s.advance before = .next (s.setPc before.nextPc) := rfl

@[simp] theorem State.skipIf_eq (s : State) (c : Bool) :
    s.skipIf c = .next (s.setPc (if c then s.skipPc else s.nextPc)) := rfl

/-- The end of a step answers a next state exactly when the instruction did (R90). -/
theorem endStep_next {o : Result} {t : State} (h : endStep o = .next t) : ∃ u, o = .next u ∧ t = u.endCycle := by
  cases o with
  | next u => exact ⟨u, rfl, by simpa [endStep] using h.symm⟩
  | fault r => cases h
  | refused r => cases h

end Sys2Proof.Machine
end

