-- ==== Sys2Proof/Laws/PerInstr.lean ====
section
/-! SUPPORT. A fact stated once per instruction, as syntax: the encoded word lies on the instruction's own row of the opcode
map (R75), so the encoder and the table of match and mask agree. -/

namespace Sys2Proof.Laws

/-! ## The rows of each format (R72) -/

theorem nnn_on_row (op : Nibble) (nnn : Addr) : formatNNN op nnn &&& 0xF000 = op ++ (0 : Addr) := by
  show (op ++ nnn : BitVec (4 + 12)) &&& (15#4 ++ 0#12 : BitVec (4 + 12)) = _
  rw [BitVec.and_append, show (15#4 : Nibble) = BitVec.allOnes 4 from rfl, BitVec.and_allOnes, BitVec.and_zero]; rfl

theorem xkk_on_row (op : Nibble) (x : Reg) (kk : Byte) : formatXKK op x kk &&& 0xF000 = op ++ (0 : Addr) := by
  rw [show formatXKK op x kk = formatNNN op (regField x ++ kk) from BitVec.eq_of_toNat_eq (by
    rw [formatXKK_toNat, formatNNN_toNat, append_toNat, regField_toNat]; omega)]
  exact nnn_on_row _ _

theorem xyn_on_row (op : Nibble) (x y : Reg) (n : Nibble) : formatXYN op x y n &&& 0xF000 = op ++ (0 : Addr) := by
  rw [show formatXYN op x y n = formatXKK op x (regField y ++ n) from BitVec.eq_of_toNat_eq (by
    rw [formatXYN_toNat, formatXKK_toNat, append_toNat, regField_toNat]; omega)]
  exact xkk_on_row _ _ _

theorem xss_on_row (op : Nibble) (x : Reg) (ss : Byte) :
    formatXKK op x ss &&& 0xF0FF = op ++ (0 : Nibble) ++ ss := by
  show (op ++ regField x ++ ss : BitVec (4 + 4 + 8)) &&& (15#4 ++ 0#4 ++ 255#8 : BitVec (4 + 4 + 8)) = _
  rw [BitVec.and_append, BitVec.and_append, show (15#4 : Nibble) = BitVec.allOnes 4 from rfl,
    show (255#8 : Byte) = BitVec.allOnes 8 from rfl, BitVec.and_allOnes, BitVec.and_allOnes, BitVec.and_zero]
  rfl

theorem xy0_on_row (op : Nibble) (x y : Reg) : formatXYN op x y 0 &&& 0xF00F = op ++ (0 : Addr) := by
  show (op ++ regField x ++ regField y ++ 0 : BitVec (4 + 4 + 4 + 4)) &&&
    (15#4 ++ 0#4 ++ 0#4 ++ 15#4 : BitVec (4 + 4 + 4 + 4)) = _
  rw [BitVec.and_append, BitVec.and_append, BitVec.and_append, show (15#4 : Nibble) = BitVec.allOnes 4 from rfl,
    BitVec.and_allOnes, BitVec.and_allOnes, BitVec.and_zero, BitVec.and_zero]
  apply BitVec.eq_of_toNat_eq
  rw [append_toNat]
  show (op ++ 0#4 ++ 0#4).toNat * 2 ^ 4 + 0 = _
  rw [append_toNat, append_toNat, append_toNat]; simp; omega

/-! ## One lemma per instruction -/

namespace OnOwnRow

/-- The instruction's word matches the row of the opcode map that its constructor stands for (R75). -/
def Statement (i : Instr) : Prop := ∃ r, opcodeRows[i.rowIndex]? = some r ∧ r.matchesWord (encode i) = true

/-- A word that gives the pattern under the mask matches the row (R74). -/
theorem of_row {i : Instr} {r : OpcodeRow} (hr : opcodeRows[i.rowIndex]? = some r) (h : encode i &&& r.mask = r.pattern) :
    Statement i := ⟨r, hr, by rw [OpcodeRow.matchesWord, h]; exact beq_self_eq_true _⟩

theorem cls : Statement (.cls) := of_row rfl rfl
theorem ret : Statement (.ret) := of_row rfl rfl
theorem jpAddr (nnn : Addr) : Statement (.jpAddr nnn) := of_row rfl (nnn_on_row _ _)
theorem callAddr (nnn : Addr) : Statement (.callAddr nnn) := of_row rfl (nnn_on_row _ _)
theorem seVxKk (x : Reg) (kk : Byte) : Statement (.seVxKk x kk) := of_row rfl (xkk_on_row _ _ _)
theorem sneVxKk (x : Reg) (kk : Byte) : Statement (.sneVxKk x kk) := of_row rfl (xkk_on_row _ _ _)
theorem seVxVy (x y : Reg) : Statement (.seVxVy x y) := of_row rfl (xy0_on_row _ _ _)
theorem ldVxKk (x : Reg) (kk : Byte) : Statement (.ldVxKk x kk) := of_row rfl (xkk_on_row _ _ _)
theorem addVxKk (x : Reg) (kk : Byte) : Statement (.addVxKk x kk) := of_row rfl (xkk_on_row _ _ _)
theorem ldVxVy (x y : Reg) : Statement (.ldVxVy x y) := of_row rfl (xy0_on_row _ _ _)
theorem sneVxVy (x y : Reg) : Statement (.sneVxVy x y) := of_row rfl (xy0_on_row _ _ _)
theorem ldIAddr (nnn : Addr) : Statement (.ldIAddr nnn) := of_row rfl (nnn_on_row _ _)
theorem drwVxVyN (x y : Reg) (n : Nibble) : Statement (.drwVxVyN x y n) := of_row rfl (xyn_on_row _ _ _ _)
theorem sknpVx (x : Reg) : Statement (.sknpVx x) := of_row rfl (xss_on_row _ _ _)
theorem ldVxDt (x : Reg) : Statement (.ldVxDt x) := of_row rfl (xss_on_row _ _ _)
theorem ldDtVx (x : Reg) : Statement (.ldDtVx x) := of_row rfl (xss_on_row _ _ _)
theorem addIVx (x : Reg) : Statement (.addIVx x) := of_row rfl (xss_on_row _ _ _)
theorem ldFVx (x : Reg) : Statement (.ldFVx x) := of_row rfl (xss_on_row _ _ _)
theorem ldBVx (x : Reg) : Statement (.ldBVx x) := of_row rfl (xss_on_row _ _ _)
theorem ldVxI (x : Reg) : Statement (.ldVxI x) := of_row rfl (xss_on_row _ _ _)

end OnOwnRow

end Sys2Proof.Laws
end

