-- ==== Sys2Proof/Laws/Reset.lean ====
section
/-! SUPPORT. What reset leaves (R25, R50, R51, R180): one lemma for a ROM that fits, one for a ROM that does not, and what
the memory reads as after the font was loaded. -/

namespace Sys2Proof.Machine

variable (font : Vector Byte 80) (rom : List Byte) (s : State)

/-- The font is loaded into a blank memory: the font in [0, 80), zero elsewhere (R50). -/
theorem State.read_loadFont (a : Nat) :
    (s.cleared.loadFont font).mem.read a = if h : a < 80 then font[a] else 0 := by
  show (Memory.blank.writeBytes 0 font.toList).read a = _
  rw [Memory.read_writeBytes Memory.wf_blank (by simp [Config.memSize]), if_pos (by omega), Memory.read_blank]
  split
  · next h => simp [h]
  · next h => rw [List.getElem?_eq_none (by simpa using h)]; rfl

theorem State.wf_loadFont : (s.cleared.loadFont font).mem.wf :=
  Memory.wf_writeBytes Memory.wf_blank (by simp [Config.memSize, Config.fontSize])

/-- Reset with a ROM that fits (R50, R180). -/
theorem State.applyReset_fits (h : rom.length ≤ 3584) :
    s.applyReset font rom =
      { s.cleared with mem := (s.cleared.loadFont font).mem.writeBytes 0x200 rom } := by
  unfold State.applyReset State.loadRom
  rw [State.memWrite_ok (.inr (by show 512 + _ ≤ _; omega))]
  rfl

/-- Reset with a ROM that does not fit (R51). -/
theorem State.applyReset_oversized (h : 3584 < rom.length) :
    s.applyReset font rom =
      { s.cleared.loadFont font with fault := some (.addressError 0x200 0x200 rom.length) } := by
  unfold State.applyReset State.loadRom
  rw [State.memWrite_error (by omega) (by show _ < 512 + _; omega)]
  rfl

end Sys2Proof.Machine
end

