-- ==== Sys2Proof/Laws/Step.lean ====
section
/-! SUPPORT. What a step can do, said once (R90), where `withFetchWord` puts a word, and what every step of a run keeps. -/

namespace Sys2Proof.Machine

/-- A step while faulted does nothing (R97). -/
theorem step_faulted {s : State} (h : s.fault ≠ none) : step s = .next s := by
  rw [step, if_pos (Option.isSome_iff_ne_none.2 h)]

/-- A step of a ready core whose fetch fails (R91, R96). -/
theorem step_fetch_error {s : State} {r : FaultRecord} (hs : s.fault = none) (hf : s.fetch = .error r) :
    step s = .next { s with fault := some r } := by
  simp [step, hs, hf, endStep, State.endCycle]

/-- A step of a ready core on a fetched word (R90). -/
theorem step_fetched {s : State} {w : Word} (hs : s.fault = none) (hf : s.fetch = .ok w) :
    step s = endStep (runWord w s) := by
  simp [step, hs, hf]

theorem step_illegal {s : State} {w : Word} {e : DecodeError} (hs : s.fault = none) (hf : s.fetch = .ok w)
    (hd : decodeWord w = .error e) : step s = .next { s with fault := some (.invalidOpcode s.pc w) } := by
  simp [step_fetched hs hf, runWord, hd, endStep, State.endCycle]

theorem step_decoded {s : State} {w : Word} {i : Instr} (hs : s.fault = none) (hf : s.fetch = .ok w)
    (hd : decodeWord w = .ok i) : step s = endStep (exec i s) := by
  simp [step_fetched hs hf, runWord, hd]

/-- Everything a step that answers a next state can have done (R90): nothing while faulted; a fetch that raised; an illegal
word; or an instruction, followed by the end of the cycle. -/
theorem step_cases {s t : State} (h : step s = .next t) :
    (s.fault ≠ none ∧ t = s) ∨
    (s.fault = none ∧ 4095 ≤ s.pc.toNat ∧ t = { s with fault := some (.addressError s.pc s.pc 2) }) ∨
    (s.fault = none ∧ ∃ w, s.fetch = .ok w ∧ decodeWord w = .error (.illegal w) ∧
      t = { s with fault := some (.invalidOpcode s.pc w) }) ∨
    (s.fault = none ∧ ∃ w i u, s.fetch = .ok w ∧ decodeWord w = .ok i ∧ exec i s = .next u ∧ t = u.endCycle) := by
  by_cases hs : s.fault = none
  · rcases s.fetch_cases with ⟨-, hf⟩ | ⟨hp, hf⟩
    · generalize wordBE (s.mem.read s.pc.toNat) (s.mem.read (s.pc.toNat + 1)) = w at hf
      cases hd : decodeWord w with
      | error e =>
        have he := decodeWord_error hd
        subst he
        rw [step_illegal hs hf hd] at h
        cases h
        exact .inr (.inr (.inl ⟨hs, w, hf, hd, rfl⟩))
      | ok i =>
        rw [step_decoded hs hf hd] at h
        obtain ⟨u, hu, rfl⟩ := endStep_next h
        exact .inr (.inr (.inr ⟨hs, w, i, u, hf, hd, hu, rfl⟩))
    · rw [step_fetch_error hs hf] at h
      cases h
      exact .inr (.inl ⟨hs, hp, rfl⟩)
  · rw [step_faulted hs] at h
    cases h
    exact .inl ⟨hs, rfl⟩

/-! ## What an instruction can do -/

theorem execRet_cases (s : State) :
    (s.sp = 0 ∧ execRet s = .next { s with fault := some (.stackUnderflow s.pc 0x00EE) }) ∨
    (∃ k : Fin 16, s.sp.toNat = k.val + 1 ∧ execRet s = .next (s.pop k)) ∨
    (17 ≤ s.sp.toNat ∧ execRet s = .fault .stackPointerOutOfRange) := by
  unfold execRet
  split_ifs with h0 h1
  · exact .inl ⟨h0, rfl⟩
  · have hne : s.sp.toNat ≠ 0 := fun e => h0 (BitVec.eq_of_toNat_eq (by simpa using e))
    exact .inr (.inl ⟨⟨s.sp.toNat - 1, h1⟩, by show s.sp.toNat = s.sp.toNat - 1 + 1; omega, rfl⟩)
  · exact .inr (.inr ⟨by omega, rfl⟩)

theorem execCallAddr_cases (nnn : Addr) (s : State) :
    (s.sp.toNat = 16 ∧
      execCallAddr nnn s = .next { s with fault := some (.stackOverflow s.pc (encode (.callAddr nnn))) }) ∨
    (∃ k : Fin 16, s.sp.toNat = k.val ∧ execCallAddr nnn s = .next ((s.push k).setPc (addrOperand nnn))) ∨
    (17 ≤ s.sp.toNat ∧ execCallAddr nnn s = .fault .stackPointerOutOfRange) := by
  unfold execCallAddr
  split_ifs with h0 h1
  · exact .inl ⟨by rw [h0]; rfl, rfl⟩
  · exact .inr (.inl ⟨⟨s.sp.toNat, h1⟩, rfl, rfl⟩)
  · have hne : s.sp.toNat ≠ 16 := fun e => h0 (BitVec.eq_of_toNat_eq (by simpa using e))
    exact .inr (.inr ⟨by omega, rfl⟩)

theorem execDrwVxVyN_cases (x y : Reg) (n : Nibble) (s : State) :
    ((n.toNat = 0 ∨ s.i.toNat + n.toNat ≤ 4096) ∧
      execDrwVxVyN x y n s = .next (({ s with fb :=
        (drawSprite s.fb s.v[x] s.v[y] (s.mem.readBytes s.i.toNat n.toNat)).1 }.writeV regVF
        (collisionFlag (drawSprite s.fb s.v[x] s.v[y] (s.mem.readBytes s.i.toNat n.toNat)).2)).setPc s.nextPc)) ∨
    ((n.toNat ≠ 0 ∧ 4096 < s.i.toNat + n.toNat) ∧
      execDrwVxVyN x y n s = .next { s with fault := some (.addressError s.pc s.i n.toNat) }) := by
  unfold execDrwVxVyN rowCount
  rcases s.memRead_cases s.i n.toNat with ⟨h, e⟩ | ⟨h, e⟩
  · exact .inl ⟨h, by rw [e]; rfl⟩
  · exact .inr ⟨h, by rw [e]; rfl⟩

theorem execSknpVx_cases (x : Reg) (s : State) :
    (15 < s.v[x].toNat ∧
      execSknpVx x s = .next { s with fault := some (.keyIndexError s.pc (encode (.sknpVx x)) s.v[x]) }) ∨
    (s.v[x].toNat ≤ 15 ∧
      execSknpVx x s = .next (s.nextSample.setPc (if s.keyDown s.v[x] then s.nextPc else s.skipPc))) := by
  unfold execSknpVx
  by_cases h : s.readV x > 15
  · rw [if_pos h]
    exact .inl ⟨by simpa [BitVec.lt_def] using h, rfl⟩
  · rw [if_neg h, State.skipIf_eq, State.readV_eq]
    refine .inr ⟨by simpa [BitVec.lt_def] using h, ?_⟩
    cases s.keyDown s.v[x] <;> rfl

theorem execLdBVx_cases (x : Reg) (s : State) :
    (s.i.toNat + 3 ≤ 4096 ∧
      execLdBVx x s = .next ({ s with mem := s.mem.writeBytes s.i.toNat (bcdDigits s.v[x]) }.setPc s.nextPc)) ∨
    (4096 < s.i.toNat + 3 ∧ execLdBVx x s = .next { s with fault := some (.addressError s.pc s.i 3) }) := by
  unfold execLdBVx
  rcases s.memWrite_cases s.i (bcdDigits s.v[x]) with ⟨h, e⟩ | ⟨h, e⟩
  · exact .inl ⟨by simpa [bcdDigits] using h, by rw [State.readV_eq, e]; rfl⟩
  · exact .inr ⟨by simpa [bcdDigits] using h, by rw [State.readV_eq, e]; rfl⟩

theorem execLdVxI_cases (x : Reg) (s : State) :
    (s.i.toNat + (x.val + 1) ≤ 4096 ∧
      execLdVxI x s = .next ((s.loadV (s.mem.readBytes s.i.toNat (x.val + 1))).setPc s.nextPc)) ∨
    (4096 < s.i.toNat + (x.val + 1) ∧
      execLdVxI x s = .next { s with fault := some (.addressError s.pc s.i (x.val + 1)) }) := by
  unfold execLdVxI loadCount
  rcases s.memRead_cases s.i (x.val + 1) with ⟨h, e⟩ | ⟨h, e⟩
  · exact .inl ⟨by omega, by rw [e]; rfl⟩
  · exact .inr ⟨h.2, by rw [e]; rfl⟩

/-! ## Placing a word (the host's `withFetchWord`) -/

theorem State.withFetchWord_mem {s : State} (h : s.pc.toNat ≤ 4094) (nbits w : Nat) :
    s.withFetchWord nbits w = { s with mem := s.mem.writeBytes s.pc.toNat (bytesBE (tableWord nbits w)) } := by
  rw [State.withFetchWord, if_pos (accessOk_iff.2 (.inr (by omega)))]

/-- What an instruction that answers a next state does to the latch: it raises, changing nothing else (R160, R161), or it
leaves the latch as it was. -/
theorem exec_raises_or_completes {i : Instr} {s t : State} (h : exec i s = .next t) :
    (∃ r, t = { s with fault := some r }) ∨ t.fault = s.fault := by
  cases i
  case ret =>
    rcases execRet_cases s with ⟨-, e⟩ | ⟨k, -, e⟩ | ⟨-, e⟩ <;> (rw [exec, e] at h; cases h)
    · exact .inl ⟨_, rfl⟩
    · exact .inr rfl
  case callAddr nnn =>
    rcases execCallAddr_cases nnn s with ⟨-, e⟩ | ⟨k, -, e⟩ | ⟨-, e⟩ <;> (rw [exec, e] at h; cases h)
    · exact .inl ⟨_, rfl⟩
    · exact .inr rfl
  case drwVxVyN x y n =>
    rcases execDrwVxVyN_cases x y n s with ⟨-, e⟩ | ⟨-, e⟩ <;> (rw [exec, e] at h; cases h)
    · exact .inr rfl
    · exact .inl ⟨_, rfl⟩
  case sknpVx x =>
    rcases execSknpVx_cases x s with ⟨-, e⟩ | ⟨-, e⟩ <;> (rw [exec, e] at h; cases h)
    · exact .inl ⟨_, rfl⟩
    · exact .inr rfl
  case ldBVx x =>
    rcases execLdBVx_cases x s with ⟨-, e⟩ | ⟨-, e⟩ <;> (rw [exec, e] at h; cases h)
    · exact .inr rfl
    · exact .inl ⟨_, rfl⟩
  case ldVxI x =>
    rcases execLdVxI_cases x s with ⟨-, e⟩ | ⟨-, e⟩ <;> (rw [exec, e] at h; cases h)
    · exact .inr (by simp)
    · exact .inl ⟨_, rfl⟩
  all_goals (cases h; exact .inr rfl)

/-- What every step keeps holds at the end of a run that begins with it. -/
theorem run_keeps {P : State → Prop} (keeps : ∀ s t, P s → step s = .next t → P t) :
    ∀ {n : Nat} {s t : State}, Run n s t → P s → P t
  | 0, _, _, rfl, hs => hs
  | _ + 1, _, _, ⟨_, h, hr⟩, hs => run_keeps keeps hr (keeps _ _ hs h)

/-- A safe run is a run. -/
theorem run_of_safeRun : ∀ {n : Nat} {s t : State}, SafeRun n s t → Run n s t
  | 0, _, _, h => h.2
  | _ + 1, _, _, ⟨_, u, h, hr⟩ => ⟨u, h, run_of_safeRun hr⟩

end Sys2Proof.Machine
end

