-- ==== Sys2Proof/Tests/Slice0.lean ====
section
/-! SUPPORT. Tests. Every expected result is the spec's: the decoding vectors of `95_test_vectors.md` section 2, its step
vectors (named `V-…` in the comments) and the examples of the source it transcribes (`S…`). Last, for every statement with
hypotheses, a named witness that meets them. -/

namespace Sys2Proof.Tests

open Sys2Proof Sys2Proof.Machine

/-! ## Helpers -/

/-- The next state, if the outcome is one. -/
def after : Result → Option State
  | .next t => some t
  | _ => none

theorem after_eq_some {o : Result} {t : State} (h : after o = some t) : o = .next t := by
  cases o <;> simp_all [after]

/-- The state after one step with the word `w` at PC. -/
def ran (w : Nat) (s : State) : Option State := after (step (s.withFetchWord 16 w))

/-- The reset state with some bytes stored from address `a`. -/
def holding (a : Nat) (bytes : List Byte) : State := { State.reset with mem := Memory.writeBytes [] a bytes }

/-- The reset state with PC elsewhere. -/
def atPc (pc : Word) : State := { State.reset with pc := pc }

/-- The reset state with `k` frames, each a return to `ret`. -/
def withFrames (k : Byte) (ret : Word) : State := { State.reset with sp := k, stack := Vector.replicate 16 ret }

/-- The reset state with key levels for one sample. -/
def withKeys (levels : BitVec 16) : State := { State.reset with keyInput := [levels] }

/-- The reset state with I set. -/
def withI (i : Word) : State := { State.reset with i := i }

/-- The pixels that are on, as (column, row). -/
def lit (fb : Framebuffer) : List (Nat × Nat) :=
  (List.finRange 32).flatMap fun r => ((List.finRange 64).filter fun c => pixel fb c r).map fun c => (c.val, r.val)

/-! ## Well-formedness: ill-formed terms are refused -/

theorem test_wellFormed_refuses_zero_word : wellFormedWord 0x0000 = false := by decide

theorem test_wellFormed_refuses_or_word : wellFormedWord 0x8121 = false := by decide

theorem test_wellFormed_accepts_a_word_per_row : ∀ r ∈ opcodeRows, wellFormedWord r.pattern = true := by decide

theorem test_wellFormed_refuses_long_rom : wellFormedRom (List.replicate 3585 0x11) = false := by decide +kernel

theorem test_wellFormed_accepts_longest_rom : wellFormedRom (List.replicate 3584 0x11) = true := by decide +kernel

/-! ## Decoding: the words of 95_test_vectors.md section 2, one or more per constructor -/

theorem test_decode_cls : decodeWord 0x00E0 = .ok .cls := by decide
theorem test_decode_ret : decodeWord 0x00EE = .ok .ret := by decide
theorem test_decode_jpAddr : decodeWord 0x1ABC = .ok (.jpAddr 0xABC) := by decide
theorem test_decode_callAddr : decodeWord 0x2300 = .ok (.callAddr 0x300) := by decide
theorem test_decode_seVxKk : decodeWord 0x3A05 = .ok (.seVxKk 10 0x05) := by decide
theorem test_decode_sneVxKk : decodeWord 0x4A05 = .ok (.sneVxKk 10 0x05) := by decide
theorem test_decode_seVxVy : decodeWord 0x5120 = .ok (.seVxVy 1 2) := by decide
theorem test_decode_ldVxKk : decodeWord 0x6012 = .ok (.ldVxKk 0 0x12) := by decide
theorem test_decode_addVxKk : decodeWord 0x7003 = .ok (.addVxKk 0 0x03) := by decide
theorem test_decode_ldVxVy : decodeWord 0x8120 = .ok (.ldVxVy 1 2) := by decide
theorem test_decode_sneVxVy : decodeWord 0x9120 = .ok (.sneVxVy 1 2) := by decide
theorem test_decode_ldIAddr : decodeWord 0xA214 = .ok (.ldIAddr 0x214) := by decide
theorem test_decode_drwVxVyN : decodeWord 0xD125 = .ok (.drwVxVyN 1 2 5) := by decide
theorem test_decode_drwVxVyN_no_rows : decodeWord 0xD120 = .ok (.drwVxVyN 1 2 0) := by decide
theorem test_decode_sknpVx : decodeWord 0xE0A1 = .ok (.sknpVx 0) := by decide
theorem test_decode_ldVxDt : decodeWord 0xF307 = .ok (.ldVxDt 3) := by decide
theorem test_decode_ldDtVx : decodeWord 0xF015 = .ok (.ldDtVx 0) := by decide
theorem test_decode_addIVx : decodeWord 0xF11E = .ok (.addIVx 1) := by decide
theorem test_decode_ldFVx : decodeWord 0xF029 = .ok (.ldFVx 0) := by decide
theorem test_decode_ldBVx : decodeWord 0xF033 = .ok (.ldBVx 0) := by decide
theorem test_decode_ldVxI : decodeWord 0xFF65 = .ok (.ldVxI 15) := by decide

/-- V-ILL-1 to V-ILL-17. -/
theorem test_decode_rejects_illegal_words :
    ([0x0000, 0x00E1, 0x0123, 0x5121, 0x8121, 0x8124, 0x812E, 0x9121, 0xB200, 0xC0FF, 0xE09E, 0xE0A0, 0xF00A,
      0xF018, 0xF055, 0xF000, 0xFFFF] : List Word).all fun w => decide (decodeWord w = .error (.illegal w)) := by decide

theorem test_decode_one_byte_is_truncated : decodeBytes [0x60] = .error .truncated := by decide

/-- R70: the first byte is the high byte. -/
theorem test_decode_bytes_high_byte_first : decodeBytes [0x60, 0x12, 0x70] = .ok (.ldVxKk 0 0x12, [0x70]) := by decide

theorem test_decode_table_word : decodeTableWord 16 0xD125 = some (.drwVxVyN 1 2 5) := by decide

theorem test_decode_table_word_illegal : decodeTableWord 16 0x5121 = none := by decide

/-! ## Reset and memory -/

theorem test_reset_meets_invariant : State.reset.Inv := by decide

theorem test_reset_memory_canonical : State.reset.mem.wf := by decide

/-- S2: the last font byte, and the first byte after the font. -/
theorem test_reset_font_ends_at_80 : (State.reset.mem.read 0x4F, State.reset.mem.read 0x50) = (0x80, 0x00) := by decide

/-- Writing what an unlisted address reads as removes the entry. -/
theorem test_memory_write_back_removes_entry : Memory.write (Memory.write [] 0x4F 0x11) 0x4F 0x80 = [] := by decide

/-- V-RST-4, V-RST-5: a one-byte ROM, from a faulted state. -/
theorem test_reset_with_one_byte_rom :
    (fun t : State => (t.mem, t.pc, t.fault)) ((raised State.reset (.invalidOpcode 0x200 0)).applyReset defaultFont [0x60]) =
      ([(0x200, 0x60)], 0x200, none) := by decide +kernel

/-- P5: the empty ROM raises on its first step and emits no `Refresh`. -/
theorem test_step_from_reset_raises :
    after (step State.reset) = some (raised State.reset (.invalidOpcode 0x200 0x0000)) := by decide

/-! ## One step -/

/-- V-CLS-1. -/
theorem test_cls_clears_and_keeps_vf :
    (ran 0x00E0 ({ State.reset with fb := Vector.replicate 32 (BitVec.allOnes 64) }.writeV 15 0x01)).map
      (fun t => (t.fb, t.v[15], t.pc)) = some (fbClear, 0x01, 0x202) := by decide

/-- V-RET-3. -/
theorem test_ret_pops : (ran 0x00EE (withFrames 16 0xABC)).map (fun t => (t.sp, t.pc)) = some (15, 0xABC) := by decide

/-- V-RET-2. -/
theorem test_ret_underflow :
    (ran 0x00EE State.reset).map (fun t => (t.fault, t.sp, t.pc)) = some (some (.stackUnderflow 0x200 0x00EE), 0, 0x200) := by
  decide

/-- V-JP-1. -/
theorem test_jpAddr : (ran 0x1ABC State.reset).map (fun t => t.pc) = some 0xABC := by decide

/-- V-CALL-2. -/
theorem test_callAddr_pushes :
    (ran 0x2300 (withFrames 15 0)).map (fun t => (t.stack[15], t.sp, t.pc)) = some (0x202, 16, 0x300) := by decide

/-- V-CALL-3. -/
theorem test_callAddr_overflow :
    (ran 0x2300 (withFrames 16 0)).map (fun t => (t.fault, t.sp, t.pc)) =
      some (some (.stackOverflow 0x200 0x2300), 16, 0x200) := by decide

/-- V-SE-1, V-SE-2. -/
theorem test_seVxKk :
    (ran 0x3A05 (State.reset.writeV 10 0x05)).map (fun t => t.pc) = some 0x204 ∧
    (ran 0x3A05 (State.reset.writeV 10 0x06)).map (fun t => t.pc) = some 0x202 := by decide

/-- V-SNE-1, V-SNE-2. -/
theorem test_sneVxKk :
    (ran 0x4A05 (State.reset.writeV 10 0x05)).map (fun t => t.pc) = some 0x202 ∧
    (ran 0x4A05 (State.reset.writeV 10 0x06)).map (fun t => t.pc) = some 0x204 := by decide

/-- V-SER-1, V-SER-2. -/
theorem test_seVxVy :
    (ran 0x5120 ((State.reset.writeV 1 7).writeV 2 7)).map (fun t => t.pc) = some 0x204 ∧
    (ran 0x5120 ((State.reset.writeV 1 7).writeV 2 8)).map (fun t => t.pc) = some 0x202 := by decide

/-- V-SNER-1, V-SNER-2. -/
theorem test_sneVxVy :
    (ran 0x9120 ((State.reset.writeV 1 7).writeV 2 8)).map (fun t => t.pc) = some 0x204 ∧
    (ran 0x9120 ((State.reset.writeV 1 7).writeV 2 7)).map (fun t => t.pc) = some 0x202 := by decide

/-- V-DT-1 (and V-LD-1). -/
theorem test_ldVxKk :
    (ran 0x6012 { State.reset with dt := 3 }).map (fun t => (t.v[0], t.pc, t.dt)) = some (0x12, 0x202, 2) := by decide

/-- V-ADD-2: the sum wraps and VF is not written. -/
theorem test_addVxKk_wraps : (ran 0x7001 (State.reset.writeV 0 0xFF)).map (fun t => (t.v[0], t.v[15])) = some (0, 0) := by
  decide

/-- V-ADD-5: VF as data. -/
theorem test_addVxKk_vf : (ran 0x7F02 (State.reset.writeV 15 0xFF)).map (fun t => t.v[15]) = some 0x01 := by decide

/-- V-LDR-1. -/
theorem test_ldVxVy : (ran 0x8120 (State.reset.writeV 2 0x7E)).map (fun t => (t.v[1], t.v[2])) = some (0x7E, 0x7E) := by
  decide

/-- V-LDI-2. -/
theorem test_ldIAddr : (ran 0xAFFF (withI 0xF123)).map (fun t => t.i) = some 0x0FFF := by decide

/-- V-ADDI-2. -/
theorem test_addIVx_past_memory :
    (ran 0xF01E ((withI 0xFFF).writeV 0 1)).map (fun t => (t.i, t.v[15], t.fault)) = some (0x1000, 0, none) := by decide

/-- V-ADDI-4. -/
theorem test_addIVx_wraps : (ran 0xF01E ((withI 0xFF80).writeV 0 0xFF)).map (fun t => t.i) = some 0x007F := by decide

/-- V-LDF-1, V-LDF-5. -/
theorem test_ldFVx :
    (ran 0xF029 (State.reset.writeV 0 0x0A)).map (fun t => t.i) = some 50 ∧
    (ran 0xF029 (State.reset.writeV 0 0x34)).map (fun t => t.i) = some 260 := by decide

/-- V-DRW-9: the most significant sprite bit is the leftmost pixel, and the start coordinates and the columns wrap. -/
theorem test_drw_wraps : lit (drawSprite fbClear 0xFF 0xFF [0xC0]).1 = [(0, 31), (63, 31)] := by decide +kernel

/-- V-DRW-13: the column is VF as it was before the instruction wrote it. -/
theorem test_drw_reads_vf_before_writing :
    (ran 0xDF01 (({ holding 0x300 [0x80] with i := 0x300 }.writeV 15 5).writeV 0 2)).map (fun t => (lit t.fb, t.v[15])) =
      some ([(5, 2)], 0) := by decide +kernel

/-- V-SKNP-1, V-SKNP-2. -/
theorem test_sknpVx :
    (ran 0xE0A1 ((withKeys 0x0000).writeV 0 3)).map (fun t => t.pc) = some 0x204 ∧
    (ran 0xE0A1 ((withKeys 0x0008).writeV 0 3)).map (fun t => t.pc) = some 0x202 := by decide

/-- V-SKNP-5: the key number is not masked. -/
theorem test_sknpVx_key_index :
    (ran 0xE0A1 ((withKeys 0x0008).writeV 0 0x13)).map (fun t => t.fault) =
      some (some (.keyIndexError 0x200 0xE0A1 19)) := by decide

/-- V-LDVDT-1. -/
theorem test_ldVxDt : (ran 0xF307 { State.reset with dt := 9 }).map (fun t => (t.v[3], t.dt)) = some (9, 8) := by decide

/-- V-LDDT-1. -/
theorem test_ldDtVx : (ran 0xF015 (State.reset.writeV 0 5)).map (fun t => t.dt) = some 4 := by decide

/-- V-LDB-1. -/
theorem test_ldBVx :
    (ran 0xF033 ((withI 0x300).writeV 0 0xFE)).map (fun t => (t.mem.readBytes 0x300 3, t.i, t.v[0])) =
      some ([2, 5, 4], 0x300, 0xFE) := by decide

/-- V-LDB-8: no digit is stored when one of the three addresses is outside memory. -/
theorem test_ldBVx_no_partial_store :
    (ran 0xF033 ({ holding 0xFFE [0xAA, 0xBB] with i := 0xFFE }.writeV 0 0x7B)).map
      (fun t => (t.fault, t.mem.readBytes 0xFFE 2)) = some (some (.addressError 0x200 0xFFE 3), [0xAA, 0xBB]) := by decide

/-- V-LDV-1. -/
theorem test_ldVxI :
    (ran 0xF265 ({ holding 0x300 [0x11, 0x22, 0x33] with i := 0x300 }.writeV 3 0x77)).map
      (fun t => (t.v[0], t.v[1], t.v[2], t.v[3], t.i)) = some (0x11, 0x22, 0x33, 0x77, 0x300) := by decide

/-- V-LDV-4: nothing is loaded when one of the addresses is outside memory. -/
theorem test_ldVxI_no_partial_load :
    (ran 0xFF65 ((withI 0xFF1).writeV 0 0x77)).map (fun t => (t.fault, t.v[0])) =
      some (some (.addressError 0x200 0xFF1 16), 0x77) := by decide

/-! ## Witnesses: the hypotheses of each statement can be met, at the bounds of each clause

The name after `test_witness_` is the statement's. -/

/-- A word that decodes to `i`, fetched by a ready core, is what `Executes` asks. -/
theorem executes_of {s : State} {i : Instr} (w : Word) (hs : s.fault = none) (hf : s.fetch = .ok w)
    (hd : decodeWord w = .ok i) : Executes s i := ⟨hs, w, hf, hd⟩

/-- The state in which the next step executes `i` without raising: one frame, one key sample, I at 0x300. -/
def start (i : Instr) : State :=
  { withFrames 1 0x202 with i := 0x300, keyInput := [0x0000], dt := 2 }.withFetchWord 16 (encode i).toNat

/-- One instruction per row of the opcode map. -/
def samples : List Instr :=
  [.cls, .ret, .jpAddr 0xFFF, .callAddr 0x300, .seVxKk 10 0x05, .sneVxKk 10 0x05, .seVxVy 1 2, .ldVxKk 0 0x12,
   .addVxKk 0 0x03, .ldVxVy 1 2] ++
  [.sneVxVy 1 2, .ldIAddr 0x214, .drwVxVyN 1 2 5, .sknpVx 0, .ldVxDt 3, .ldDtVx 0, .addIVx 1, .ldFVx 0, .ldBVx 0, .ldVxI 15]

theorem test_witness_ResetPlacesFontRomAndZeros :
    ([0x12, 0x00] : List Byte).length ≤ 3584 ∧ (List.replicate 3584 (0x11 : Byte)).length ≤ 3584 ∧
    80 ≤ 80 ∧ 80 < 0x200 ∧ 0x200 + ([0x12, 0x00] : List Byte).length ≤ 0x202 := by
  decide +kernel

theorem test_witness_ResetClearsRegistersAndFault :
    ([] : List Byte).length ≤ 3584 ∧ (raised State.reset (.invalidOpcode 0x200 0)).fault ≠ none := by decide

theorem test_witness_OversizedRomRefusedWhole : 3584 < (List.replicate 3585 (0x11 : Byte)).length := by
  decide +kernel

theorem test_witness_StepKeepsInvariant :
    State.reset.Inv ∧ (withFrames 16 0x1000).Inv ∧ (atPc 0x1002).Inv ∧ (start .ret).Inv ∧
    (after (step State.reset)).isSome ∧ (after (step (withFrames 16 0x1000))).isSome ∧
    (after (step (atPc 0x1002))).isSome ∧ (after (step (start .ret))).isSome := by decide +kernel

theorem test_witness_StepNeverStuckUnderInvariant : State.reset.Inv ∧ (withFrames 16 0x1000).Inv := by decide

/-- One completed step, and two steps of which the first raises (P5). -/
theorem test_witness_ReachableStatesBounded :
    (∃ t, t.ready ∧ Run 1 (State.reset.applyReset defaultFont [0x12, 0x00]) t) ∧
    ∃ t, t.fault ≠ none ∧ Run 2 (State.reset.applyReset defaultFont []) t := by
  have hs : (after (step (State.reset.applyReset defaultFont [0x12, 0x00]))).any fun t => decide t.ready := by
    decide +kernel
  have hr : (after (step (State.reset.applyReset defaultFont []))).any fun t =>
      decide (t.fault ≠ none) && decide (after (step t) = some t) := by decide +kernel
  obtain ⟨t, ht, hd⟩ := (Option.any_eq_true _ _).1 hs
  obtain ⟨u, hu, he⟩ := (Option.any_eq_true _ _).1 hr
  obtain ⟨hf, hn⟩ := Bool.and_eq_true_iff.1 he
  exact ⟨⟨t, of_decide_eq_true hd, t, after_eq_some ht, rfl⟩,
    ⟨u, of_decide_eq_true hf, u, after_eq_some hu, u, after_eq_some (of_decide_eq_true hn), rfl⟩⟩

theorem test_witness_StaleStackEntriesUnobservable :
    AgreeButStaleStack (withFrames 0 0) (withFrames 0 0xABC) ∧ withFrames 0 0 ≠ withFrames 0 0xABC ∧
    AgreeButStaleStack (withFrames 1 0) { withFrames 1 0 with stack := (withFrames 1 0).stack.set 1 0xABC } ∧
    (after (step (withFrames 0 0))).isSome := by
  refine ⟨⟨rfl, by decide⟩, by decide, ⟨rfl, by decide⟩, by decide⟩

theorem test_witness_EachItemHasOnlyItsWriters :
    ((after (exec .cls { State.reset with fb := Vector.replicate 32 1 })).any fun t => t.fb ≠ Vector.replicate 32 1) ∧
    ((after (exec (.ldBVx 0) ((withI 0x300).writeV 0 9))).any fun t => t.mem ≠ []) ∧
    ((after (exec (.callAddr 0x300) State.reset)).any fun t =>
      t.stack ≠ State.reset.stack ∧ t.sp ≠ State.reset.sp) ∧
    ((after (exec (.ldIAddr 0x214) State.reset)).any fun t => t.i ≠ 0) ∧
    ((after (exec (.ldDtVx 0) (State.reset.writeV 0 5))).any fun t => t.dt ≠ 0) ∧
    ((after (exec (.ldVxI 15) State.reset)).any fun t => t.v[15] ≠ 0) ∧
    ((after (exec (.ldBVx 0) (withI 0xFFE))).any fun t => t.fault ≠ none) ∧
    ((after (exec (.sknpVx 0) (withKeys 1))).any fun t => t.keyInput ≠ [1] ∧ t.keySamples ≠ 0) := by decide

theorem test_witness_WriteThenReadReturnsBytes :
    State.reset.mem.wf ∧ (0xFFD : Word).toNat + ([1, 2, 3] : List Byte).length ≤ 4096 := by decide

theorem test_witness_AccessesAreCheckedWhole :
    4096 < (0xFFE : Word).toNat + ([1, 2, 3] : List Byte).length ∧
    4096 < (0xFFFF : Word).toNat + ([] : List Byte).length := by decide

theorem test_witness_CanonicalMemoriesAreEqual :
    Memory.wf [(0x4F, 0x00), (0xFFF, 0x01)] ∧
    ∀ a, Memory.read [(0x4F, 0x00), (0xFFF, 0x01)] a = Memory.read [(0x4F, 0x00), (0xFFF, 0x01)] a :=
  ⟨by decide, fun _ => rfl⟩

theorem test_witness_EncodeOfDecode : decodeWord 0xDFFF = .ok (.drwVxVyN 15 15 15) := by decide

theorem test_witness_DecodeFollowsOpcodeMap :
    decodeWord 0xFF65 = .ok (.ldVxI 15) ∧ wellFormedWord 0xFF65 = true ∧ wellFormedWord 0xF055 = false ∧
    ∃ r ∈ opcodeRows, r.matchesWord 0xFF65 = true := by decide

theorem test_witness_StepRunsDecodedInstruction :
    (∀ i ∈ samples, (start i).ready ∧ (start i).pc.toNat + 2 ≤ 4096 ∧
      decodeWord (wordBE ((start i).mem.read 0x200) ((start i).mem.read 0x201)) = .ok i ∧
      (after (exec i (start i))).any fun t => decide t.ready) ∧
    ((after (exec .ret State.reset)).any fun t => decide (¬ t.ready)) ∧
    exec .ret (withFrames 17 0) = .fault .stackPointerOutOfRange := by
  refine ⟨by decide +kernel, by decide, rfl⟩

theorem test_witness_FetchOutsideMemoryRaises :
    ((atPc 0xFFF).ready ∧ 4095 ≤ (atPc 0xFFF).pc.toNat) ∧ ((atPc 0xFFFF).ready ∧ 4095 ≤ (atPc 0xFFFF).pc.toNat) := by
  decide

theorem test_witness_IllegalWordRaisesInvalidOpcode :
    (atPc 0xFFE).ready ∧ (atPc 0xFFE).pc.toNat + 2 ≤ 4096 ∧
    wellFormedWord (wordBE ((atPc 0xFFE).mem.read 0xFFE) ((atPc 0xFFE).mem.read 0xFFF)) = false := by decide

theorem test_witness_FaultedStepDoesNothing : (raised State.reset (.invalidOpcode 0x200 0)).fault ≠ none := by decide

theorem test_witness_FaultsArePrecise :
    State.reset.ready ∧ step State.reset = .next (raised State.reset (.invalidOpcode 0x200 0x0000)) :=
  ⟨rfl, rfl⟩

theorem test_witness_CompletedStepDecaysAndRefreshes :
    State.reset.ready ∧ ((after (step (start .cls))).any fun t => decide t.ready) ∧
    ((after (step State.reset)).any fun t => decide (¬ t.ready)) := by decide +kernel

/-- The word of each sample is fetched and decoded to it, and the step completes. -/
theorem test_every_sample_completes : ∀ i ∈ samples,
    (start i).fault = none ∧ (start i).fetch = .ok (encode i) ∧ decodeWord (encode i) = .ok i ∧
    (after (step (start i))).any fun t => decide t.ready := by decide +kernel

theorem test_witness_PcAndTimerPerInstruction : ∀ i ∈ samples, ∃ t,
    Executes (start i) i ∧ step (start i) = .next t ∧ t.ready := by
  intro i hi
  obtain ⟨h1, h2, h3, h4⟩ := test_every_sample_completes i hi
  obtain ⟨t, ht, hd⟩ := (Option.any_eq_true _ _).1 h4
  exact ⟨t, executes_of _ h1 h2 h3, after_eq_some ht, of_decide_eq_true hd⟩

theorem test_witness_EachInstructionRaisesOnlyItsFault :
    exec (.callAddr 0x300) (withFrames 16 0) = .next (raised (withFrames 16 0) (.stackOverflow 0x200 0x2300)) ∧
    exec .ret State.reset = .next (raised State.reset (.stackUnderflow 0x200 0x00EE)) ∧
    exec (.sknpVx 0) (State.reset.writeV 0 16) =
      .next (raised (State.reset.writeV 0 16) (.keyIndexError 0x200 0xE0A1 16)) ∧
    exec (.drwVxVyN 1 2 2) (withI 0xFFF) = .next (raised (withI 0xFFF) (.addressError 0x200 0xFFF 2)) ∧
    exec (.ldBVx 0) (withI 0xFFE) = .next (raised (withI 0xFFE) (.addressError 0x200 0xFFE 3)) ∧
    exec (.ldVxI 0) (withI 0x1000) = .next (raised (withI 0x1000) (.addressError 0x200 0x1000 1)) :=
  ⟨rfl, rfl, rfl, rfl, rfl, rfl⟩

/-- Each of the four records, left by one step. -/
theorem test_witness_FaultRecordsHoldFetchedWord :
    State.reset.ready ∧ State.reset.fetch = .ok 0x0000 ∧
    (ran 0x2300 (withFrames 16 0)).map State.fault = some (some (.stackOverflow 0x200 0x2300)) ∧
    (ran 0x00EE State.reset).map State.fault = some (some (.stackUnderflow 0x200 0x00EE)) ∧
    (ran 0xEFA1 (State.reset.writeV 15 16)).map State.fault = some (some (.keyIndexError 0x200 0xEFA1 16)) ∧
    (ran 0x5121 State.reset).map State.fault = some (some (.invalidOpcode 0x200 0x5121)) := by decide

theorem test_witness_RetPopsOrUnderflows :
    (withFrames 1 0).sp.toNat = (0 : Fin 16).val + 1 ∧ (withFrames 16 0).sp.toNat = (15 : Fin 16).val + 1 ∧
    State.reset.sp = 0 := by decide

theorem test_witness_CallPushesOrOverflows :
    State.reset.sp.toNat = (0 : Fin 16).val ∧ (withFrames 15 0).sp.toNat = (15 : Fin 16).val ∧
    (withFrames 16 0).sp.toNat = 16 := by decide

theorem test_witness_CallAndRetStopBeyondStack :
    17 ≤ (withFrames 17 0).sp.toNat ∧ 17 ≤ (withFrames 255 0).sp.toNat := by decide

theorem test_witness_RetReturnsPastItsCall : ∃ t v : State,
    State.reset.ready ∧ exec (.callAddr 0x300) State.reset = .next t ∧ t.ready ∧
    (t.writeV 0 1).sp = t.sp ∧ (t.writeV 0 1).stack = t.stack ∧ exec .ret (t.writeV 0 1) = .next v :=
  ⟨_, _, rfl, rfl, rfl, rfl, rfl, rfl⟩

theorem test_witness_DrawSpriteXorsWrappedSprite : (List.replicate 15 (0x80 : Byte)).length ≤ 15 := by decide

theorem test_witness_DrawingTwiceRestoresGrid : ([] : List Byte).length ≤ 15 ∧ ([0xFF] : List Byte).length ≤ 15 := by
  decide

theorem test_witness_DrwDrawsSpriteAndSetsVf :
    (0 : Nibble).toNat = 0 ∧ (withI 0xFF1).i.toNat + (15 : Nibble).toNat ≤ 4096 ∧
    ((15 : Nibble).toNat ≠ 0 ∧ 4096 < (withI 0xFF2).i.toNat + (15 : Nibble).toNat) := by decide

theorem test_witness_SknpSkipsWhenKeyUp :
    ((withKeys 1).writeV 0 15).v[(0 : Reg)].toNat ≤ 15 ∧ ((withKeys 1).writeV 0 15).keyInput = 1 :: [] ∧
    (State.reset.writeV 0 0).v[(0 : Reg)].toNat ≤ 15 ∧ (State.reset.writeV 0 0).keyInput = [] ∧
    15 < (State.reset.writeV 0 16).v[(0 : Reg)].toNat := by decide

theorem test_witness_TimerStepsDecayAfterMove :
    Executes (start (.ldVxDt 3)) (.ldVxDt 3) ∧ Executes (start (.ldDtVx 0)) (.ldDtVx 0) :=
  ⟨executes_of 0xF307 (by decide) (by decide) (by decide), executes_of 0xF015 (by decide) (by decide) (by decide)⟩

/-- A run of one step: LD V0,0x12. -/
theorem test_witness_TimerCountsCompletedSteps : ∃ run : Nat → State, ∀ j < 1,
    (run j).ready ∧ step (run j) = .next (run (j + 1)) ∧ (run (j + 1)).ready ∧ ∀ x, ¬ Executes (run j) (.ldDtVx x) := by
  have ⟨h1, h2, h3, h4⟩ := test_every_sample_completes (.ldVxKk 0 0x12) (by decide)
  obtain ⟨t, ht, hd⟩ := (Option.any_eq_true _ _).1 h4
  refine ⟨fun j => if j = 0 then start (.ldVxKk 0 0x12) else t, fun j hj => ?_⟩
  obtain rfl : j = 0 := by omega
  refine ⟨h1, after_eq_some ht, of_decide_eq_true hd, ?_⟩
  rintro x ⟨-, w, hf, hx⟩
  cases hf.symm.trans h2
  cases hx.symm.trans h3

/-- Another instruction is executed, the fetch raises, the decode raises, the core is faulted, and RET stops. -/
theorem test_witness_KeysReadOnlyBySknp :
    (∀ s ∈ [start .cls, atPc 0xFFF, State.reset, raised State.reset (.invalidOpcode 0x200 0)],
      (∀ x : Reg, ¬ Executes s (.sknpVx x)) ∧ (after (step s)).isSome) ∧
    (∀ x : Reg, ¬ Executes ((withFrames 17 0).withFetchWord 16 0x00EE) (.sknpVx x)) ∧
    step ((withFrames 17 0).withFetchWord 16 0x00EE) = .fault .stackPointerOutOfRange := by
  have notSknp {s : State} (h : (s.fault.isSome || match s.fetch with
      | .ok w => (match decodeWord w with | .ok (.sknpVx _) => false | _ => true)
      | .error _ => true) = true) (x : Reg) : ¬ Executes s (.sknpVx x) := by
    rintro ⟨hs, w, hf, hd⟩
    simp [hs, hf, hd] at h
  refine ⟨?_, notSknp (by decide), rfl⟩
  simp only [List.forall_mem_cons, List.not_mem_nil, false_imp_iff, implies_true, and_true]
  refine ⟨⟨notSknp ?_, ?_⟩, ⟨notSknp ?_, ?_⟩, ⟨notSknp ?_, ?_⟩, ⟨notSknp ?_, ?_⟩⟩ <;> decide +kernel

theorem test_witness_LdBVxStoresDecimalDigits :
    State.reset.mem.wf ∧ (withI 0xFFD).i.toNat + 3 ≤ 4096 ∧ 4096 < (withI 0xFFE).i.toNat + 3 := by decide

theorem test_witness_LdVxILoadsRegisters :
    (withI 0xFF0).i.toNat + ((15 : Reg).val + 1) ≤ 4096 ∧ 4096 < (withI 0xFF1).i.toNat + ((15 : Reg).val + 1) := by decide

theorem test_witness_StoreOverNextInstructionIsFetched :
    let s := { State.reset with i := 0x202 }.withFetchWord 16 0xF033
    s.mem.wf ∧ Executes s (.ldBVx 0) ∧ s.i.toNat = s.pc.toNat + 2 ∧ s.i.toNat + 3 ≤ 4096 ∧ (after (step s)).isSome :=
  ⟨by decide, executes_of 0xF033 (by decide) (by decide) (by decide), by decide, by decide, by decide⟩

theorem test_witness_SelfJumpChangesOnlyTimer :
    let s := { State.reset with dt := 1 }.withFetchWord 16 0x1200
    s.ready ∧ s.atSelfJump :=
  ⟨by decide, 0x200, by decide, by decide⟩

theorem test_witness_PlacedWordIsFetched : State.reset.mem.wf ∧ (atPc 0xFFE).pc.toNat ≤ 4094 := by decide

end Sys2Proof.Tests
end

section
/-! Proofs of the statements about the assembly spelling (R80, R82). -/

namespace Sys2Proof

/-- FX29 as a number, for every register (R82, R75 row 18). -/
theorem encode_ldFVx_toNat (x : Reg) : (encode (.ldFVx x)).toNat = 0xF029 + x.val * 256 := by
  have h : (encode (.ldFVx x)).toNat = 0xF * 4096 + x.val * 256 + 0x29 := formatXKK_toNat 0xF x 0x29
  omega

/-- Settles O18: the five closed examples by evaluating `disassemble` and `encode`; FX29 for every register by
`encode_ldFVx_toNat`. -/
theorem sourceDisassemblyExamples : Obligations.SourceDisassemblyExamples := by
  unfold Obligations.SourceDisassemblyExamples
  refine ⟨
    by decide, by decide, -- LD V0,0x12
    by decide, by decide, -- ADD V0,0x03
    by decide, by decide, -- CALL 0x300
    by decide, by decide, -- RET
    by decide, by decide, -- SE VA,0x05
    fun x => ⟨?_, encode_ldFVx_toNat x⟩⟩
  rw [disassemble]

end Sys2Proof
end

section
/-! Proofs of the statements about JP and the skips (R101, R103 to R106). Each of the five instructions is a `State.setPc` of
the state it began in, so the frame is that of `State.setPc`, and the four skips share one lemma over their condition. -/

namespace Sys2Proof.Machine

/-! ## The meanings of JP, SE and SNE, through the shared operations -/

theorem exec_jpAddr (nnn : Addr) (s : State) : exec (.jpAddr nnn) s = .next (s.setPc (addrOperand nnn)) := rfl

theorem exec_seVxKk (x : Reg) (kk : Byte) (s : State) : exec (.seVxKk x kk) s = s.skipIf (s.v[x] == kk) := rfl

theorem exec_sneVxKk (x : Reg) (kk : Byte) (s : State) : exec (.sneVxKk x kk) s = s.skipIf (s.v[x] != kk) := rfl

theorem exec_seVxVy (x y : Reg) (s : State) : exec (.seVxVy x y) s = s.skipIf (s.v[x] == s.v[y]) := rfl

theorem exec_sneVxVy (x y : Reg) (s : State) : exec (.sneVxVy x y) s = s.skipIf (s.v[x] != s.v[y]) := rfl

/-! ## What moving PC leaves unchanged -/

/-- Every item but PC is as it was. -/
theorem State.setPc_frame (s : State) (target : Word) :
    s.setPc target = { s with pc := (s.setPc target).pc } := rfl

theorem State.sameMemory_setPc (s : State) (target : Word) : SameMemory s (s.setPc target) :=
  fun a => by rw [State.setPc_mem]

/-! ## The skip -/

/-- "The comparison is of two unsigned 8-bit values for equality" (R103). -/
theorem byte_beq_iff (a b : Byte) : (a == b) = true ↔ a.toNat = b.toNat :=
  beq_iff_eq.trans BitVec.toNat_inj.symm

/-- The comparison for inequality (R104). -/
theorem byte_bne_iff (a b : Byte) : (a != b) = true ↔ a.toNat ≠ b.toNat :=
  bne_iff_ne.trans BitVec.toNat_inj.symm.not

/-- A skip (R93, R99): PC goes up by 4 when the condition holds and by 2 otherwise, and nothing else changes. -/
theorem State.skipIf_moves_pc_only (s : State) {c : Bool} {p : Prop} [Decidable p] (hc : c = true ↔ p) :
    ∃ t, s.skipIf c = .next t ∧ t.pc.toNat = (s.pc.toNat + if p then 4 else 2) % 65536 ∧
      t = { s with pc := t.pc } ∧ SameMemory s t := by
  refine ⟨_, s.skipIf_eq c, ?_, s.setPc_frame _, s.sameMemory_setPc _⟩
  rw [State.setPc_pc]
  by_cases hp : p
  · rw [if_pos (hc.2 hp), if_pos hp, State.skipPc_toNat]
  · rw [if_neg (mt hc.1 hp), if_neg hp, State.nextPc_toNat]

end Sys2Proof.Machine

namespace Sys2Proof

open Machine

/-- Settles O30: JP is a `State.setPc` of the zero-extended target. -/
theorem jpSetsPc : Obligations.JpSetsPc := by
  unfold Obligations.JpSetsPc
  intro s nnn
  refine ⟨_, exec_jpAddr nnn s, ?_, s.setPc_frame _, s.sameMemory_setPc _⟩
  rw [State.setPc_pc, addrOperand_toNat]

/-- Settles O33: both instructions are `State.skipIf` on a comparison of the register with the immediate. -/
theorem skipOnImmediate : Obligations.SkipOnImmediate := by
  unfold Obligations.SkipOnImmediate
  intro s x kk
  rw [exec_seVxKk, exec_sneVxKk]
  exact ⟨s.skipIf_moves_pc_only (byte_beq_iff _ _), s.skipIf_moves_pc_only (byte_bne_iff _ _)⟩

/-- Settles O34: both instructions are `State.skipIf` on a comparison of the two registers. -/
theorem skipOnRegisters : Obligations.SkipOnRegisters := by
  unfold Obligations.SkipOnRegisters
  intro s x y
  rw [exec_seVxVy, exec_sneVxVy]
  exact ⟨s.skipIf_moves_pc_only (byte_beq_iff _ _), s.skipIf_moves_pc_only (byte_bne_iff _ _)⟩

end Sys2Proof
end

section
/-! Proofs of the statements about the loads and the addition of an immediate (R110 to R113). Each of the four instructions
changes one item and then moves PC to NEXT; the three that write a register share one lemma. -/

namespace Sys2Proof.Machine

/-! ## The meanings of the loads and of ADD Vx,kk, through the shared operations -/

theorem exec_ldVxKk (x : Reg) (kk : Byte) (s : State) : exec (.ldVxKk x kk) s = (s.writeV x kk).advance s := rfl

theorem exec_addVxKk (x : Reg) (kk : Byte) (s : State) :
    exec (.addVxKk x kk) s = (s.writeV x (s.v[x] + kk)).advance s := rfl

theorem exec_ldVxVy (x y : Reg) (s : State) : exec (.ldVxVy x y) s = (s.writeV x s.v[y]).advance s := rfl

theorem exec_ldIAddr (nnn : Addr) (s : State) :
    exec (.ldIAddr nnn) s = State.advance { s with i := addrOperand nnn } s := rfl

/-! ## One item written, then `pc <- NEXT` -/

/-- Equal memory data reads the same at every address. -/
theorem sameMemory_of_mem_eq {s t : State} (h : t.mem = s.mem) : SameMemory s t :=
  fun a => by rw [h]

/-- `V[x] <- b ; pc <- NEXT` (R11, R93): register `x` takes `b`, PC goes up by 2, and nothing else changes. -/
theorem State.writeV_advance_frame (s : State) (x : Reg) (b : Byte) :
    ∃ t, (s.writeV x b).advance s = .next t ∧ t.v[x] = b ∧ (∀ r : Reg, r ≠ x → t.v[r] = s.v[r]) ∧
      t.pc.toNat = (s.pc.toNat + 2) % 65536 ∧ t = { s with v := t.v, pc := t.pc } ∧ SameMemory s t :=
  ⟨_, State.advance_eq _ s, s.readV_writeV_same x b, fun _ hr => s.readV_writeV_other b hr, s.nextPc_toNat, rfl,
    sameMemory_of_mem_eq rfl⟩

/-- `I <- w ; pc <- NEXT` (R93): I takes `w`, PC goes up by 2, and nothing else changes. -/
theorem State.setI_advance_frame (s : State) (w : Word) :
    ∃ t, State.advance { s with i := w } s = .next t ∧ t.i = w ∧ t.pc.toNat = (s.pc.toNat + 2) % 65536 ∧
      t = { s with i := t.i, pc := t.pc } ∧ SameMemory s t :=
  ⟨_, State.advance_eq _ s, rfl, s.nextPc_toNat, rfl, sameMemory_of_mem_eq rfl⟩

end Sys2Proof.Machine

namespace Sys2Proof

open Machine

/-- Settles O36: LD Vx,kk is a `State.writeV` of the immediate and an advance. -/
theorem ldVxKkLoadsImmediate : Obligations.LdVxKkLoadsImmediate := by
  unfold Obligations.LdVxKkLoadsImmediate
  intro s x kk
  rw [exec_ldVxKk]
  exact s.writeV_advance_frame x kk

/-- Settles O37: ADD Vx,kk is a `State.writeV` of the 8-bit sum, which is the sum modulo 256, and an advance. -/
theorem addVxKkWrapsWithoutFlag : Obligations.AddVxKkWrapsWithoutFlag := by
  unfold Obligations.AddVxKkWrapsWithoutFlag
  intro s x kk
  rw [exec_addVxKk]
  obtain ⟨t, ht, hx, frame⟩ := s.writeV_advance_frame x (s.v[x] + kk)
  refine ⟨t, ht, ?_, frame⟩
  rw [hx, BitVec.toNat_add]

/-- Settles O38: LD Vx,Vy is a `State.writeV` of the source register's value and an advance. -/
theorem ldVxVyCopiesRegister : Obligations.LdVxVyCopiesRegister := by
  unfold Obligations.LdVxVyCopiesRegister
  intro s x y
  rw [exec_ldVxVy]
  exact s.writeV_advance_frame x s.v[y]

/-- Settles O39: LD I,addr writes the zero-extended address, which has the value of a 12-bit number, and advances. -/
theorem ldIAddrLoadsAddress : Obligations.LdIAddrLoadsAddress := by
  unfold Obligations.LdIAddrLoadsAddress
  intro s nnn
  rw [exec_ldIAddr]
  obtain ⟨t, ht, hi, frame⟩ := s.setI_advance_frame (addrOperand nnn)
  have hval : t.i.toNat = nnn.toNat := by rw [hi, addrOperand_toNat]
  have hlt : t.i.toNat < 4096 := hval ▸ nnn.isLt
  exact ⟨t, ht, hval, hlt, frame⟩

end Sys2Proof
end

section
/-! Proof of the statement about CLS (R120, R122): the framebuffer becomes `fbClear` and PC moves to NEXT. -/

namespace Sys2Proof.Machine

/-- CLS through the shared operations (R122): `FbClear()` and `pc <- NEXT`. -/
theorem exec_cls (s : State) : exec .cls s = State.advance { s with fb := fbClear } s := rfl

/-- `FbClear()` in the row-major numbering (R120): `FB[p]` is off. -/
@[simp] theorem fbIndex_fbClear (p : Nat) : fbIndex fbClear p = false := pixel_fbClear _ _

/-- `FB <- fb ; pc <- NEXT` (R93): the framebuffer becomes `fb`, PC goes up by 2, and nothing else changes. -/
theorem State.setFb_advance_frame (s : State) (fb : Framebuffer) :
    ∃ t, State.advance { s with fb := fb } s = .next t ∧ t.fb = fb ∧ t.pc.toNat = (s.pc.toNat + 2) % 65536 ∧
      t = { s with fb := t.fb, pc := t.pc } ∧ SameMemory s t :=
  ⟨_, State.advance_eq _ s, rfl, s.nextPc_toNat, rfl, sameMemory_of_mem_eq rfl⟩

end Sys2Proof.Machine

namespace Sys2Proof

open Machine

/-- Settles O42: CLS stores `fbClear`, in which every pixel is off, and advances. -/
theorem clsTurnsEveryPixelOff : Obligations.ClsTurnsEveryPixelOff := by
  unfold Obligations.ClsTurnsEveryPixelOff
  intro s
  rw [exec_cls]
  obtain ⟨t, ht, hfb, frame⟩ := s.setFb_advance_frame fbClear
  have hoff : ∀ p < 2048, fbIndex t.fb p = false := fun p _ => by rw [hfb, fbIndex_fbClear]
  exact ⟨t, ht, hoff, frame⟩

end Sys2Proof
end

section
/-! Proofs of the statements about encoding and decoding (R71 to R76): the decoder inverts the encoder, the encoder inverts
the decoder, and both agree with the opcode map and with the table of illegal words. -/

namespace Sys2Proof

/-! ## The round trips -/

/-- A format's own fields select its own arm of the decoder. -/
theorem decodeWord_encode (i : Instr) : decodeWord (encode i) = .ok i := by
  cases i with
  | cls | ret => decide
  | jpAddr nnn | callAddr nnn | ldIAddr nnn => simp [encode, decodeWord]
  | seVxKk x kk | sneVxKk x kk | ldVxKk x kk | addVxKk x kk => simp [encode, decodeWord]
  | seVxVy x y | ldVxVy x y | sneVxVy x y => simp [encode, decodeWord, decodeXY0]
  | drwVxVyN x y n => simp [encode, decodeWord]
  | sknpVx x => simp [encode, decodeWord, decodeClassE]
  | ldVxDt x | ldDtVx x | addIVx x | ldFVx x | ldBVx x | ldVxI x => simp [encode, decodeWord, decodeClassF]

/-- Format XY0 puts back a word whose low nibble is 0 (R72). -/
theorem formatXYN_fields_zero {w : Word} {op : Nibble} (hop : fieldOp w = op) (hn : fieldN w = 0) :
    formatXYN op (fieldX w) (fieldY w) 0 = w := hn ▸ formatXYN_fields hop

/-- Format XSS puts back a word whose low byte is the selector (R72). -/
theorem formatXKK_fields_selector {w : Word} {op : Nibble} {ss : Byte} (hop : fieldOp w = op) (hk : fieldKk w = ss) :
    formatXKK op (fieldX w) ss = w := hk ▸ formatXKK_fields hop

/-- Each arm of the decoder keeps every bit of the word in the operands it takes. -/
theorem encode_of_decodeWord {w : Word} {i : Instr} (h : decodeWord w = .ok i) : encode i = w := by
  unfold decodeWord at h
  split at h
  case h_1 => exact decodeClass0_ok h
  case h_2 hop | h_3 hop | h_11 hop => cases h; exact formatNNN_fields hop
  case h_4 hop | h_5 hop | h_7 hop | h_8 hop => cases h; exact formatXKK_fields hop
  case h_6 hop | h_9 hop | h_10 hop =>
    obtain ⟨hn, rfl⟩ := decodeXY0_ok h
    exact formatXYN_fields_zero hop hn
  case h_12 hop => cases h; exact formatXYN_fields hop
  case h_13 hop =>
    obtain ⟨hk, rfl⟩ := decodeClassE_ok h
    exact formatXKK_fields_selector hop hk
  case h_14 hop =>
    rcases decodeClassF_ok h with ⟨hk, rfl⟩ | ⟨hk, rfl⟩ | ⟨hk, rfl⟩ | ⟨hk, rfl⟩ | ⟨hk, rfl⟩ | ⟨hk, rfl⟩ <;>
      exact formatXKK_fields_selector hop hk
  case h_15 => cases h

/-- A word decodes to an instruction exactly when it is that instruction's encoding. -/
theorem decodeWord_ok_iff {w : Word} {i : Instr} : decodeWord w = .ok i ↔ encode i = w :=
  ⟨encode_of_decodeWord, fun h => h ▸ decodeWord_encode i⟩

/-! ## The opcode map (R75) -/

/-- The operands of an instruction are the fields of its word. -/
theorem operandsAreFields_encode (i : Instr) : Machine.OperandsAreFields (encode i) i := by
  cases i with
  | cls | ret => trivial
  | jpAddr nnn | callAddr nnn | ldIAddr nnn =>
    simp only [Machine.OperandsAreFields, encode, formatNNN_toNat]; omega
  | seVxKk x kk | sneVxKk x kk | ldVxKk x kk | addVxKk x kk =>
    simp only [Machine.OperandsAreFields, encode, formatXKK_toNat]; omega
  | seVxVy x y | ldVxVy x y | sneVxVy x y | drwVxVyN x y n =>
    simp only [Machine.OperandsAreFields, encode, formatXYN_toNat]; omega
  | sknpVx x | ldVxDt x | ldDtVx x | addIVx x | ldFVx x | ldBVx x | ldVxI x =>
    simp only [Machine.OperandsAreFields, encode, formatXKK_toNat]; omega

/-- The word of an instruction matches the instruction's own row. -/
theorem encode_matches_own_row (i : Instr) :
    ∃ r, opcodeRows[i.rowIndex]? = some r ∧ r.matchesWord (encode i) = true := by
  cases i
  case cls => exact Laws.OnOwnRow.cls
  case ret => exact Laws.OnOwnRow.ret
  case jpAddr => exact Laws.OnOwnRow.jpAddr _
  case callAddr => exact Laws.OnOwnRow.callAddr _
  case seVxKk => exact Laws.OnOwnRow.seVxKk _ _
  case sneVxKk => exact Laws.OnOwnRow.sneVxKk _ _
  case seVxVy => exact Laws.OnOwnRow.seVxVy _ _
  case ldVxKk => exact Laws.OnOwnRow.ldVxKk _ _
  case addVxKk => exact Laws.OnOwnRow.addVxKk _ _
  case ldVxVy => exact Laws.OnOwnRow.ldVxVy _ _
  case sneVxVy => exact Laws.OnOwnRow.sneVxVy _ _
  case ldIAddr => exact Laws.OnOwnRow.ldIAddr _
  case drwVxVyN => exact Laws.OnOwnRow.drwVxVyN _ _ _
  case sknpVx => exact Laws.OnOwnRow.sknpVx _
  case ldVxDt => exact Laws.OnOwnRow.ldVxDt _
  case ldDtVx => exact Laws.OnOwnRow.ldDtVx _
  case addIVx => exact Laws.OnOwnRow.addIVx _
  case ldFVx => exact Laws.OnOwnRow.ldFVx _
  case ldBVx => exact Laws.OnOwnRow.ldBVx _
  case ldVxI => exact Laws.OnOwnRow.ldVxI _

/-! ### What a row fixes of a word (R74) -/

theorem matchesWord_iff {r : OpcodeRow} {w : Word} : r.matchesWord w = true ↔ w &&& r.mask = r.pattern := beq_iff_eq

/-- A row whose mask covers a field fixes it. -/
theorem field_of_matchesWord {r : OpcodeRow} {w : Word} {start len : Nat} (h : r.matchesWord w = true)
    (hm : r.mask.extractLsb' start len = BitVec.allOnes len) :
    w.extractLsb' start len = r.pattern.extractLsb' start len := by
  rw [← matchesWord_iff.1 h, BitVec.extractLsb'_and, hm, BitVec.and_allOnes]

theorem fieldOp_of_matchesWord {r : OpcodeRow} {w : Word} (h : r.matchesWord w = true) (hm : fieldOp r.mask = 0xF) :
    fieldOp w = fieldOp r.pattern := field_of_matchesWord h hm

theorem fieldN_of_matchesWord {r : OpcodeRow} {w : Word} (h : r.matchesWord w = true) (hm : fieldN r.mask = 0xF) :
    fieldN w = fieldN r.pattern := field_of_matchesWord h hm

theorem fieldKk_of_matchesWord {r : OpcodeRow} {w : Word} (h : r.matchesWord w = true) (hm : fieldKk r.mask = 0xFF) :
    fieldKk w = fieldKk r.pattern := field_of_matchesWord h hm

/-- A word on one of the rows 1 to 10 is an encoding. -/
theorem exists_encode_of_low_row {r : OpcodeRow} {w : Word} (hr : r ∈ opcodeRowsLow) (h : r.matchesWord w = true) :
    ∃ i, encode i = w := by
  simp only [opcodeRowsLow, List.mem_cons, List.not_mem_nil, or_false] at hr
  rcases hr with rfl | rfl | rfl | rfl | rfl | rfl | rfl | rfl | rfl | rfl
  · exact ⟨.cls, (matchesWord_iff.1 h).symm.trans BitVec.and_allOnes⟩
  · exact ⟨.ret, (matchesWord_iff.1 h).symm.trans BitVec.and_allOnes⟩
  · exact ⟨.jpAddr _, formatNNN_fields (fieldOp_of_matchesWord h rfl)⟩
  · exact ⟨.callAddr _, formatNNN_fields (fieldOp_of_matchesWord h rfl)⟩
  · exact ⟨.seVxKk _ _, formatXKK_fields (fieldOp_of_matchesWord h rfl)⟩
  · exact ⟨.sneVxKk _ _, formatXKK_fields (fieldOp_of_matchesWord h rfl)⟩
  · exact ⟨.seVxVy _ _, formatXYN_fields_zero (fieldOp_of_matchesWord h rfl) (fieldN_of_matchesWord h rfl)⟩
  · exact ⟨.ldVxKk _ _, formatXKK_fields (fieldOp_of_matchesWord h rfl)⟩
  · exact ⟨.addVxKk _ _, formatXKK_fields (fieldOp_of_matchesWord h rfl)⟩
  · exact ⟨.ldVxVy _ _, formatXYN_fields_zero (fieldOp_of_matchesWord h rfl) (fieldN_of_matchesWord h rfl)⟩

/-- A word on one of the rows 11 to 20 is an encoding. -/
theorem exists_encode_of_high_row {r : OpcodeRow} {w : Word} (hr : r ∈ opcodeRowsHigh) (h : r.matchesWord w = true) :
    ∃ i, encode i = w := by
  simp only [opcodeRowsHigh, List.mem_cons, List.not_mem_nil, or_false] at hr
  rcases hr with rfl | rfl | rfl | rfl | rfl | rfl | rfl | rfl | rfl | rfl
  · exact ⟨.sneVxVy _ _, formatXYN_fields_zero (fieldOp_of_matchesWord h rfl) (fieldN_of_matchesWord h rfl)⟩
  · exact ⟨.ldIAddr _, formatNNN_fields (fieldOp_of_matchesWord h rfl)⟩
  · exact ⟨.drwVxVyN _ _ _, formatXYN_fields (fieldOp_of_matchesWord h rfl)⟩
  · exact ⟨.sknpVx _, formatXKK_fields_selector (fieldOp_of_matchesWord h rfl) (fieldKk_of_matchesWord h rfl)⟩
  · exact ⟨.ldVxDt _, formatXKK_fields_selector (fieldOp_of_matchesWord h rfl) (fieldKk_of_matchesWord h rfl)⟩
  · exact ⟨.ldDtVx _, formatXKK_fields_selector (fieldOp_of_matchesWord h rfl) (fieldKk_of_matchesWord h rfl)⟩
  · exact ⟨.addIVx _, formatXKK_fields_selector (fieldOp_of_matchesWord h rfl) (fieldKk_of_matchesWord h rfl)⟩
  · exact ⟨.ldFVx _, formatXKK_fields_selector (fieldOp_of_matchesWord h rfl) (fieldKk_of_matchesWord h rfl)⟩
  · exact ⟨.ldBVx _, formatXKK_fields_selector (fieldOp_of_matchesWord h rfl) (fieldKk_of_matchesWord h rfl)⟩
  · exact ⟨.ldVxI _, formatXKK_fields_selector (fieldOp_of_matchesWord h rfl) (fieldKk_of_matchesWord h rfl)⟩

theorem wellFormedWord_iff {w : Word} : wellFormedWord w = true ↔ ∃ r ∈ opcodeRows, r.matchesWord w = true :=
  List.any_eq_true

/-- The decoder accepts exactly the words of the opcode map. -/
theorem exists_decodeWord_ok_iff {w : Word} : (∃ i, decodeWord w = .ok i) ↔ wellFormedWord w = true := by
  simp only [decodeWord_ok_iff, wellFormedWord_iff]
  constructor
  · rintro ⟨i, rfl⟩
    obtain ⟨r, hr, hm⟩ := encode_matches_own_row i
    exact ⟨r, List.mem_of_getElem? hr, hm⟩
  · rintro ⟨r, hr, hm⟩
    rcases List.mem_append.1 hr with hr | hr
    · exact exists_encode_of_low_row hr hm
    · exact exists_encode_of_high_row hr hm

/-- A word outside the opcode map is rejected by its own name (R76). -/
theorem decodeWord_of_not_wellFormed {w : Word} (h : wellFormedWord w = false) : decodeWord w = .error (.illegal w) := by
  cases hd : decodeWord w with
  | error e => rw [decodeWord_error hd]
  | ok i => rw [exists_decodeWord_ok_iff.1 ⟨i, hd⟩] at h; cases h

/-- Two rows that no mask tells apart are one row. -/
theorem opcodeRows_disjoint : ∀ r ∈ opcodeRows, ∀ r' ∈ opcodeRows,
    r.pattern &&& r'.mask = r'.pattern &&& r.mask → r = r' := by decide

/-- A word under both masks gives both patterns under the other's mask, so it matches one row only (R74). -/
theorem row_unique {w : Word} {r r' : OpcodeRow} (hr : r ∈ opcodeRows) (hr' : r' ∈ opcodeRows)
    (h : r.matchesWord w = true) (h' : r'.matchesWord w = true) : r = r' := by
  refine opcodeRows_disjoint r hr r' hr' ?_
  rw [← matchesWord_iff.1 h, ← matchesWord_iff.1 h', BitVec.and_assoc, BitVec.and_assoc, BitVec.and_comm r.mask]

/-! ## The table of illegal words (R76) -/

theorem decodeClass0_illegal_iff {w : Word} :
    decodeClass0 w = .error (.illegal w) ↔ w ≠ 0x00E0 ∧ w ≠ 0x00EE := by
  unfold decodeClass0; split_ifs <;> simp_all

theorem decodeXY0_illegal_iff {mk : Reg → Reg → Instr} {w : Word} :
    decodeXY0 mk w = .error (.illegal w) ↔ w.toNat % 16 ≠ 0 := by
  rw [← fieldN_toNat]
  unfold decodeXY0; split_ifs with h
  · simp [h]
  · simpa [← BitVec.toNat_inj] using h

theorem decodeClassE_illegal_iff {w : Word} :
    decodeClassE w = .error (.illegal w) ↔ w.toNat % 256 ≠ 0xA1 := by
  rw [← fieldKk_toNat]
  unfold decodeClassE; split_ifs with h
  · simp [h]
  · simpa [← BitVec.toNat_inj] using h

theorem decodeClassF_illegal_iff {w : Word} :
    decodeClassF w = .error (.illegal w) ↔ w.toNat % 256 ∉ ([0x07, 0x15, 0x1E, 0x29, 0x33, 0x65] : List Nat) := by
  rw [← fieldKk_toNat]
  unfold decodeClassF; split_ifs with h1 h2 h3 h4 h5 h6 <;> simp_all [← BitVec.toNat_inj]

/-! ## The statements -/

/-- Settles O13: by cases on the instruction (`decodeWord_encode`). -/
theorem decodeOfEncode : Obligations.DecodeOfEncode := by
  unfold Obligations.DecodeOfEncode
  exact decodeWord_encode

/-- Settles O14: by cases on the decoder's arms (`encode_of_decodeWord`). -/
theorem encodeOfDecode : Obligations.EncodeOfDecode := by
  unfold Obligations.EncodeOfDecode
  exact fun _ _ => encode_of_decodeWord

/-- Settles O15: a decoded word is an encoding, and an encoding has its operands as fields and lies on its own row. -/
theorem decodeFollowsOpcodeMap : Obligations.DecodeFollowsOpcodeMap := by
  unfold Obligations.DecodeFollowsOpcodeMap
  refine fun w => ⟨fun i hi => ?_, exists_decodeWord_ok_iff.2, decodeWord_of_not_wellFormed,
    fun r hr r' hr' h h' => row_unique hr hr' h h'⟩
  obtain rfl := encode_of_decodeWord hi
  exact ⟨operandsAreFields_encode i, encode_matches_own_row i⟩

/-- Settles O16: each class of the decoder rejects what its line of the table says. -/
theorem illegalWordsByClass : Obligations.IllegalWordsByClass := by
  unfold Obligations.IllegalWordsByClass
  intro w
  have hclass := fieldOp_toNat w
  unfold decodeWord
  split
  case h_1 hop => rw [hop] at hclass; rw [decodeClass0_illegal_iff, ← hclass]; simp
  case h_6 hop | h_9 hop | h_10 hop => rw [hop] at hclass; rw [decodeXY0_illegal_iff, ← hclass]; simp
  case h_13 hop => rw [hop] at hclass; rw [decodeClassE_illegal_iff, ← hclass]; simp
  case h_14 hop => rw [hop] at hclass; rw [decodeClassF_illegal_iff, ← hclass]; simp
  case h_2 hop | h_3 hop | h_4 hop | h_5 hop | h_7 hop | h_8 hop | h_11 hop | h_12 hop =>
    rw [hop] at hclass; rw [← hclass]; simp
  case h_15 =>
    -- the two classes without an arm
    have hop : fieldOp w = 0xB ∨ fieldOp w = 0xC := by
      simp only [imp_false] at *
      bv_omega
    rcases hop with hop | hop <;> rw [hop] at hclass <;> simp [← hclass]

/-- Settles O17: evaluating the decoder on each word. -/
theorem sampleWordsDecode : Obligations.SampleWordsDecode := by
  unfold Obligations.SampleWordsDecode
  decide

end Sys2Proof
end

section
/-! What an instruction can do, said once for all twenty (R93, R99, R159): it completes, with the effect of its row; or it
raises, leaving the record of its row in the latch and nothing else changed; or it stops, which CALL and RET do beyond the
stack. The statements about every instruction are case splits on these two relations. -/

namespace Sys2Proof.Machine

/-- What DRW draws (R123): the grid with the `n` bytes at I drawn on it, and whether they collided. -/
def State.drawn (s : State) (x y : Reg) (n : Nibble) : Blit :=
  drawSprite s.fb s.v[x] s.v[y] (s.mem.readBytes s.i.toNat n.toNat)

/-- The instruction completes, from `s` to the second state. -/
inductive Completes (s : State) : Instr → State → Prop
  | cls : Completes s .cls ({ s with fb := fbClear }.setPc s.nextPc)
  | ret (k : Fin 16) (hk : s.sp.toNat = k.val + 1) : Completes s .ret (s.pop k)
  | jpAddr (nnn : Addr) : Completes s (.jpAddr nnn) (s.setPc (addrOperand nnn))
  | callAddr (nnn : Addr) (k : Fin 16) (hk : s.sp.toNat = k.val) :
    Completes s (.callAddr nnn) ((s.push k).setPc (addrOperand nnn))
  | seVxKk (x : Reg) (kk : Byte) : Completes s (.seVxKk x kk) (s.setPc (if s.v[x] == kk then s.skipPc else s.nextPc))
  | sneVxKk (x : Reg) (kk : Byte) : Completes s (.sneVxKk x kk) (s.setPc (if s.v[x] != kk then s.skipPc else s.nextPc))
  | seVxVy (x y : Reg) : Completes s (.seVxVy x y) (s.setPc (if s.v[x] == s.v[y] then s.skipPc else s.nextPc))
  | sneVxVy (x y : Reg) : Completes s (.sneVxVy x y) (s.setPc (if s.v[x] != s.v[y] then s.skipPc else s.nextPc))
  | ldVxKk (x : Reg) (kk : Byte) : Completes s (.ldVxKk x kk) ((s.writeV x kk).setPc s.nextPc)
  | addVxKk (x : Reg) (kk : Byte) : Completes s (.addVxKk x kk) ((s.writeV x (s.v[x] + kk)).setPc s.nextPc)
  | ldVxVy (x y : Reg) : Completes s (.ldVxVy x y) ((s.writeV x s.v[y]).setPc s.nextPc)
  | ldIAddr (nnn : Addr) : Completes s (.ldIAddr nnn) ({ s with i := addrOperand nnn }.setPc s.nextPc)
  | drwVxVyN (x y : Reg) (n : Nibble) (hi : n.toNat = 0 ∨ s.i.toNat + n.toNat ≤ 4096) :
    Completes s (.drwVxVyN x y n)
      (({ s with fb := (s.drawn x y n).1 }.writeV regVF (collisionFlag (s.drawn x y n).2)).setPc s.nextPc)
  | sknpVx (x : Reg) (hx : s.v[x].toNat ≤ 15) :
    Completes s (.sknpVx x) (s.nextSample.setPc (if s.keyDown s.v[x] then s.nextPc else s.skipPc))
  | ldVxDt (x : Reg) : Completes s (.ldVxDt x) ((s.writeV x s.dt).setPc s.nextPc)
  | ldDtVx (x : Reg) : Completes s (.ldDtVx x) ({ s with dt := s.v[x] }.setPc s.nextPc)
  | addIVx (x : Reg) : Completes s (.addIVx x) ({ s with i := s.i + byteOperand s.v[x] }.setPc s.nextPc)
  | ldFVx (x : Reg) : Completes s (.ldFVx x) ({ s with i := byteOperand s.v[x] * 5 }.setPc s.nextPc)
  | ldBVx (x : Reg) (hi : s.i.toNat + 3 ≤ 4096) :
    Completes s (.ldBVx x) ({ s with mem := s.mem.writeBytes s.i.toNat (bcdDigits s.v[x]) }.setPc s.nextPc)
  | ldVxI (x : Reg) (hi : s.i.toNat + (x.val + 1) ≤ 4096) :
    Completes s (.ldVxI x) ((s.loadV (s.mem.readBytes s.i.toNat (x.val + 1))).setPc s.nextPc)

/-- The instruction raises, from `s`, the fault with this record (R159). -/
inductive Raises (s : State) : Instr → FaultRecord → Prop
  | ret (hsp : s.sp = 0) : Raises s .ret (.stackUnderflow s.pc (encode .ret))
  | callAddr (nnn : Addr) (hsp : s.sp.toNat = 16) :
    Raises s (.callAddr nnn) (.stackOverflow s.pc (encode (.callAddr nnn)))
  | drwVxVyN (x y : Reg) (n : Nibble) (hn : n.toNat ≠ 0) (hi : 4096 < s.i.toNat + n.toNat) :
    Raises s (.drwVxVyN x y n) (.addressError s.pc s.i n.toNat)
  | sknpVx (x : Reg) (hx : 15 < s.v[x].toNat) :
    Raises s (.sknpVx x) (.keyIndexError s.pc (encode (.sknpVx x)) s.v[x])
  | ldBVx (x : Reg) (hi : 4096 < s.i.toNat + 3) : Raises s (.ldBVx x) (.addressError s.pc s.i 3)
  | ldVxI (x : Reg) (hi : 4096 < s.i.toNat + (x.val + 1)) : Raises s (.ldVxI x) (.addressError s.pc s.i (x.val + 1))

/-- Everything an instruction can do: complete, raise, or, beyond the stack, stop (log entry 4). -/
theorem exec_cases (i : Instr) (s : State) :
    (∃ t, exec i s = .next t ∧ Completes s i t) ∨
    (∃ r, exec i s = .next (raised s r) ∧ Raises s i r) ∨
    (17 ≤ s.sp.toNat ∧ exec i s = .fault .stackPointerOutOfRange) := by
  cases i with
  | cls => exact .inl ⟨_, rfl, .cls⟩
  | ret =>
    rcases execRet_cases s with ⟨h, e⟩ | ⟨k, h, e⟩ | ⟨h, e⟩
    · exact .inr (.inl ⟨_, e, .ret h⟩)
    · exact .inl ⟨_, e, .ret k h⟩
    · exact .inr (.inr ⟨h, e⟩)
  | jpAddr nnn => exact .inl ⟨_, rfl, .jpAddr nnn⟩
  | callAddr nnn =>
    rcases execCallAddr_cases nnn s with ⟨h, e⟩ | ⟨k, h, e⟩ | ⟨h, e⟩
    · exact .inr (.inl ⟨_, e, .callAddr nnn h⟩)
    · exact .inl ⟨_, e, .callAddr nnn k h⟩
    · exact .inr (.inr ⟨h, e⟩)
  | seVxKk x kk => exact .inl ⟨_, rfl, .seVxKk x kk⟩
  | sneVxKk x kk => exact .inl ⟨_, rfl, .sneVxKk x kk⟩
  | seVxVy x y => exact .inl ⟨_, rfl, .seVxVy x y⟩
  | ldVxKk x kk => exact .inl ⟨_, rfl, .ldVxKk x kk⟩
  | addVxKk x kk => exact .inl ⟨_, rfl, .addVxKk x kk⟩
  | ldVxVy x y => exact .inl ⟨_, rfl, .ldVxVy x y⟩
  | sneVxVy x y => exact .inl ⟨_, rfl, .sneVxVy x y⟩
  | ldIAddr nnn => exact .inl ⟨_, rfl, .ldIAddr nnn⟩
  | drwVxVyN x y n =>
    rcases execDrwVxVyN_cases x y n s with ⟨h, e⟩ | ⟨⟨hn, hi⟩, e⟩
    · exact .inl ⟨_, e, .drwVxVyN x y n h⟩
    · exact .inr (.inl ⟨_, e, .drwVxVyN x y n hn hi⟩)
  | sknpVx x =>
    rcases execSknpVx_cases x s with ⟨h, e⟩ | ⟨h, e⟩
    · exact .inr (.inl ⟨_, e, .sknpVx x h⟩)
    · exact .inl ⟨_, e, .sknpVx x h⟩
  | ldVxDt x => exact .inl ⟨_, rfl, .ldVxDt x⟩
  | ldDtVx x => exact .inl ⟨_, rfl, .ldDtVx x⟩
  | addIVx x => exact .inl ⟨_, rfl, .addIVx x⟩
  | ldFVx x => exact .inl ⟨_, rfl, .ldFVx x⟩
  | ldBVx x =>
    rcases execLdBVx_cases x s with ⟨h, e⟩ | ⟨h, e⟩
    · exact .inl ⟨_, e, .ldBVx x h⟩
    · exact .inr (.inl ⟨_, e, .ldBVx x h⟩)
  | ldVxI x =>
    rcases execLdVxI_cases x s with ⟨h, e⟩ | ⟨h, e⟩
    · exact .inl ⟨_, e, .ldVxI x h⟩
    · exact .inr (.inl ⟨_, e, .ldVxI x h⟩)

/-- An instruction that answers a next state completed or raised. -/
theorem exec_next_cases {i : Instr} {s t : State} (h : exec i s = .next t) :
    Completes s i t ∨ ∃ r, Raises s i r ∧ t = raised s r := by
  rcases exec_cases i s with ⟨u, hu, hc⟩ | ⟨r, hr, hc⟩ | ⟨-, hf⟩
  · cases hu.symm.trans h; exact .inl hc
  · cases hr.symm.trans h; exact .inr ⟨r, hc, rfl⟩
  · cases hf.symm.trans h

/-! ## What each item of the state was changed by -/

section
variable {s t : State} {i : Instr}

theorem Completes.fault_eq (hc : Completes s i t) : t.fault = s.fault := by
  cases hc <;> simp

theorem Completes.refreshCount_eq (hc : Completes s i t) : t.refreshCount = s.refreshCount := by
  cases hc <;> simp

theorem Completes.refreshFrame_eq (hc : Completes s i t) : t.refreshFrame = s.refreshFrame := by
  cases hc <;> simp

theorem Completes.fb_writer (hc : Completes s i t) (hne : t.fb ≠ s.fb) : i = .cls ∨ ∃ x y n, i = .drwVxVyN x y n := by
  cases hc
  case cls => exact .inl rfl
  case drwVxVyN x y n _ => exact .inr ⟨x, y, n, rfl⟩
  all_goals simp at hne

theorem Completes.mem_writer (hc : Completes s i t) (hne : t.mem ≠ s.mem) : ∃ x, i = .ldBVx x := by
  cases hc
  case ldBVx x _ => exact ⟨x, rfl⟩
  all_goals simp at hne

theorem Completes.stack_writer (hc : Completes s i t) (hne : t.stack ≠ s.stack) : ∃ nnn, i = .callAddr nnn := by
  cases hc
  case callAddr nnn _ _ => exact ⟨nnn, rfl⟩
  all_goals simp at hne

theorem Completes.sp_writer (hc : Completes s i t) (hne : t.sp ≠ s.sp) : i = .ret ∨ ∃ nnn, i = .callAddr nnn := by
  cases hc
  case ret => exact .inl rfl
  case callAddr nnn _ _ => exact .inr ⟨nnn, rfl⟩
  all_goals simp at hne

theorem Completes.i_writer (hc : Completes s i t) (hne : t.i ≠ s.i) :
    (∃ nnn, i = .ldIAddr nnn) ∨ (∃ x, i = .addIVx x) ∨ ∃ x, i = .ldFVx x := by
  cases hc
  case ldIAddr nnn => exact .inl ⟨nnn, rfl⟩
  case addIVx x => exact .inr (.inl ⟨x, rfl⟩)
  case ldFVx x => exact .inr (.inr ⟨x, rfl⟩)
  all_goals simp at hne

theorem Completes.dt_writer (hc : Completes s i t) (hne : t.dt ≠ s.dt) : ∃ x, i = .ldDtVx x := by
  cases hc
  case ldDtVx x => exact ⟨x, rfl⟩
  all_goals simp at hne

theorem Completes.keys_reader (hc : Completes s i t) (hne : t.keyInput ≠ s.keyInput ∨ t.keySamples ≠ s.keySamples) :
    ∃ x, i = .sknpVx x := by
  cases hc
  case sknpVx x _ => exact ⟨x, rfl⟩
  all_goals simp at hne

/-- A written register changed only if it is the one written. -/
theorem State.eq_of_writeV_ne {s : State} {x r : Reg} {b : Byte} (hne : (s.writeV x b).v[r] ≠ s.v[r]) : r = x := by
  by_contra h
  exact hne (s.readV_writeV_other b h)

/-- The registers up to `x` are the only ones a load of `x + 1` bytes changes. -/
theorem State.le_of_loadV_ne {s : State} {x r : Reg} {bytes : List Byte} (hlen : bytes.length = x.val + 1)
    (hne : (s.loadV bytes).v[r] ≠ s.v[r]) : r ≤ x := by
  by_contra h
  refine hne ?_
  show (s.loadV bytes).v[r.val] = s.v[r.val]
  rw [State.loadV_getElem, List.getElem?_eq_none (hlen ▸ Fin.not_le.1 h), Option.getD_none]

theorem Completes.v_writer (hc : Completes s i t) {r : Reg} (hne : t.v[r] ≠ s.v[r]) :
    (∃ kk, i = .ldVxKk r kk) ∨ (∃ kk, i = .addVxKk r kk) ∨ (∃ y, i = .ldVxVy r y) ∨ i = .ldVxDt r ∨
      (∃ x, i = .ldVxI x ∧ r ≤ x) ∨ (r = 15 ∧ ∃ x y n, i = .drwVxVyN x y n) := by
  cases hc
  case ldVxKk x kk => obtain rfl := State.eq_of_writeV_ne hne; exact .inl ⟨kk, rfl⟩
  case addVxKk x kk => obtain rfl := State.eq_of_writeV_ne hne; exact .inr (.inl ⟨kk, rfl⟩)
  case ldVxVy x y => obtain rfl := State.eq_of_writeV_ne hne; exact .inr (.inr (.inl ⟨y, rfl⟩))
  case ldVxDt x => obtain rfl := State.eq_of_writeV_ne hne; exact .inr (.inr (.inr (.inl rfl)))
  case ldVxI x _ =>
    rw [State.setPc_v] at hne
    exact .inr (.inr (.inr (.inr (.inl ⟨x, rfl, State.le_of_loadV_ne (Memory.readBytes_length _ _ _) hne⟩))))
  case drwVxVyN x y n _ =>
    have hr : r = 15 := State.eq_of_writeV_ne (s := { s with fb := (s.drawn x y n).1 }) hne
    exact .inr (.inr (.inr (.inr (.inr ⟨hr, x, y, n, rfl⟩))))
  all_goals simp at hne

theorem Raises.raiser {r : FaultRecord} (hr : Raises s i r) :
    i = .ret ∨ (∃ nnn, i = .callAddr nnn) ∨ (∃ x, i = .sknpVx x) ∨
      (∃ x y n, i = .drwVxVyN x y n) ∨ (∃ x, i = .ldBVx x) ∨ ∃ x, i = .ldVxI x := by
  cases hr <;> simp

end

end Sys2Proof.Machine

namespace Sys2Proof

open Machine

/-- Settles O9: an instruction that raises changes the latch alone; for one that completes, a lemma per item. -/
theorem eachItemHasOnlyItsWriters : Obligations.EachItemHasOnlyItsWriters := by
  unfold Obligations.EachItemHasOnlyItsWriters
  intro i s t h
  rcases exec_next_cases h with hc | ⟨r, hr, rfl⟩
  · exact ⟨hc.fb_writer, hc.mem_writer, hc.stack_writer, hc.sp_writer, hc.i_writer, hc.dt_writer,
      fun _ => hc.v_writer, fun hne => absurd hc.fault_eq hne, hc.keys_reader, hc.refreshCount_eq, hc.refreshFrame_eq⟩
  · exact ⟨absurd rfl, absurd rfl, absurd rfl, absurd rfl, absurd rfl, absurd rfl, fun _ => absurd rfl,
      fun _ => hr.raiser, fun hne => hne.elim (absurd rfl) (absurd rfl), rfl, rfl⟩

end Sys2Proof
end

section
/-! The invariant (R15, R16): every step keeps it, no step from it is stuck, and reset establishes it. -/

namespace Sys2Proof.Machine

/-! ## What the end of a cycle leaves unchanged (R94, R95) -/

/-- The end of a cycle changes DT and the `Refresh` fields alone. -/
theorem State.endCycle_frame (s : State) :
    s.endCycle = { s with
      dt := s.endCycle.dt, refreshCount := s.endCycle.refreshCount, refreshFrame := s.endCycle.refreshFrame } := by
  unfold State.endCycle; split <;> rfl

section
variable (s : State)

@[simp] theorem State.endCycle_sp : s.endCycle.sp = s.sp := by rw [State.endCycle_frame]
@[simp] theorem State.endCycle_stack : s.endCycle.stack = s.stack := by rw [State.endCycle_frame]

end

theorem State.Inv.endCycle {s : State} (h : s.Inv) : s.endCycle.Inv := by
  rw [State.endCycle_frame]; exact h

/-! ## An instruction that completes, fetched from inside the memory -/

section
variable {s t : State} {i : Instr}

/-- LD B,Vx alone writes memory, and only a range that fits. -/
theorem Completes.mem_wf (hc : Completes s i t) (h : s.mem.wf) : t.mem.wf := by
  by_cases hm : t.mem = s.mem
  · rw [hm]; exact h
  · obtain ⟨x, rfl⟩ := hc.mem_writer hm
    cases hc with
    | ldBVx _ hi => exact Memory.wf_writeBytes h hi

/-- RET lowers SP, and CALL raises it from at most 15 (R16). -/
theorem Completes.sp_le (hc : Completes s i t) (h : s.sp.toNat ≤ 16) : t.sp.toNat ≤ 16 := by
  by_cases hsp : t.sp = s.sp
  · rw [hsp]; exact h
  · rcases hc.sp_writer hsp with rfl | ⟨nnn, rfl⟩
    · cases hc with
      | ret k hk => simp only [State.pop_sp]; bv_omega
    · cases hc with
      | callAddr _ k hk => simp only [State.setPc_sp, State.push_sp]; bv_omega

/-- The address after an instruction that was fetched is at most 0x1000 (R93). -/
theorem State.nextPc_le (hpc : s.pc.toNat ≤ 4094) : s.nextPc.toNat ≤ 0x1000 := by
  rw [State.nextPc_toNat]; omega

theorem State.skipPc_le (hpc : s.pc.toNat ≤ 4094) : s.skipPc.toNat ≤ 0x1002 := by
  rw [State.skipPc_toNat]; omega

/-- CALL alone writes the stack, and it writes NEXT (R102). -/
theorem Completes.stack_le (hc : Completes s i t) (hpc : s.pc.toNat ≤ 4094)
    (h : ∀ k : Fin 16, s.stack[k].toNat ≤ 0x1000) (j : Fin 16) : t.stack[j].toNat ≤ 0x1000 := by
  by_cases hst : t.stack = s.stack
  · rw [hst]; exact h j
  · obtain ⟨nnn, rfl⟩ := hc.stack_writer hst
    cases hc with
    | callAddr _ k hk =>
      show ((s.stack.set k s.nextPc)[j.val]).toNat ≤ 0x1000
      rw [Vector.getElem_set]
      split
      · exact State.nextPc_le hpc
      · exact h j

/-- PC takes NEXT, a skip past it, a 12-bit target or a return address (R99). -/
theorem Completes.pc_le (hc : Completes s i t) (hpc : s.pc.toNat ≤ 4094)
    (h : ∀ k : Fin 16, s.stack[k].toNat ≤ 0x1000) : t.pc.toNat ≤ 0x1002 := by
  have hnext := State.nextPc_le hpc
  have hskip := State.skipPc_le hpc
  cases hc
  case ret k _ => exact (h k).trans (by decide)
  case jpAddr nnn | callAddr nnn _ _ => simp only [State.setPc_pc, addrOperand_toNat]; omega
  case seVxKk | sneVxKk | seVxVy | sneVxVy | sknpVx => rw [State.setPc_pc]; split <;> omega
  all_goals (rw [State.setPc_pc]; omega)

theorem Completes.inv (hc : Completes s i t) (hpc : s.pc.toNat ≤ 4094) (h : s.Inv) : t.Inv := by
  obtain ⟨hmem, hsp, hstack, -⟩ := h
  exact ⟨hc.mem_wf hmem, hc.sp_le hsp, hc.stack_le hpc hstack, hc.pc_le hpc hstack⟩

end

/-! ## A step -/

/-- A fetch that leaves memory raises (R91). -/
theorem State.fetch_error {s : State} (h : 4095 ≤ s.pc.toNat) : s.fetch = .error (.addressError s.pc s.pc 2) := by
  rcases s.fetch_cases with ⟨hp, -⟩ | ⟨-, e⟩
  · omega
  · exact e

theorem step_raises_of_fetch {s : State} (hs : s.ready) (h : 4095 ≤ s.pc.toNat) :
    step s = .next (raised s (.addressError s.pc s.pc 2)) := step_fetch_error hs (State.fetch_error h)

theorem step_raises_of_illegal {s : State} {w : Word} {e : DecodeError} (hs : s.ready) (hf : s.fetch = .ok w)
    (hd : decodeWord w = .error e) : step s = .next (raised s (.invalidOpcode s.pc w)) := step_illegal hs hf hd

/-- What a step that answers a next state did (R90): nothing, in a faulted core; a fetch, a decode or an instruction that
raised; or an instruction that completed, and then the end of the cycle. -/
theorem step_next_cases {s t : State} (h : step s = .next t) :
    (s.fault ≠ none ∧ t = s) ∨
    (s.ready ∧ 4095 ≤ s.pc.toNat ∧ t = raised s (.addressError s.pc s.pc 2)) ∨
    (s.ready ∧ ∃ w, s.fetch = .ok w ∧ decodeWord w = .error (.illegal w) ∧ t = raised s (.invalidOpcode s.pc w)) ∨
    (∃ i r, Executes s i ∧ Raises s i r ∧ t = raised s r) ∨
    (∃ i u, Executes s i ∧ exec i s = .next u ∧ Completes s i u ∧ t = u.endCycle) := by
  rcases step_cases h with ⟨hf, ht⟩ | ⟨hs, hp, ht⟩ | ⟨hs, w, hw, hd, ht⟩ | ⟨hs, w, i, u, hw, hd, hu, rfl⟩
  · exact .inl ⟨hf, ht⟩
  · exact .inr (.inl ⟨hs, hp, ht⟩)
  · exact .inr (.inr (.inl ⟨hs, w, hw, hd, ht⟩))
  · rcases exec_next_cases hu with hc | ⟨r, hr, rfl⟩
    · exact .inr (.inr (.inr (.inr ⟨i, u, ⟨hs, w, hw, hd⟩, hu, hc, rfl⟩)))
    · exact .inr (.inr (.inr (.inl ⟨i, r, ⟨hs, w, hw, hd⟩, hr, State.endCycle_faulted (Option.some_ne_none r)⟩)))

/-- An instruction that is executed was fetched from PC at most 4094 (R91). -/
theorem Executes.pc_le {s : State} {i : Instr} (h : Executes s i) : s.pc.toNat ≤ 4094 := by
  obtain ⟨-, w, hw, -⟩ := h
  exact (State.fetch_ok hw).1

/-- A raise changes none of the items the invariant speaks of, nor does the end of a cycle. -/
theorem State.Inv.step {s t : State} (h : s.Inv) (hstep : Machine.step s = .next t) : t.Inv := by
  rcases step_next_cases hstep with ⟨-, rfl⟩ | ⟨-, -, rfl⟩ | ⟨-, w, -, -, rfl⟩ | ⟨i, r, -, -, rfl⟩ | ⟨i, u, hi, -, hc, rfl⟩
  · exact h
  · exact h
  · exact h
  · exact h
  · exact (hc.inv hi.pc_le h).endCycle

/-- With SP at most 16 no instruction stops. -/
theorem exec_answers {s : State} (hsp : s.sp.toNat ≤ 16) (i : Instr) : ∃ t, exec i s = .next t := by
  rcases exec_cases i s with ⟨t, ht, -⟩ | ⟨r, hr, -⟩ | ⟨hover, -⟩
  · exact ⟨t, ht⟩
  · exact ⟨_, hr⟩
  · omega

theorem step_answers {s : State} (hsp : s.sp.toNat ≤ 16) : ∃ t, step s = .next t := by
  by_cases hs : s.fault = none
  · cases hf : s.fetch with
    | error r => exact ⟨_, step_fetch_error hs hf⟩
    | ok w =>
      cases hd : decodeWord w with
      | error e => exact ⟨_, step_illegal hs hf hd⟩
      | ok i =>
        obtain ⟨t, ht⟩ := exec_answers hsp i
        exact ⟨t.endCycle, by rw [step_decoded hs hf hd, ht, endStep]⟩
  · exact ⟨s, step_faulted hs⟩

/-! ## Reset (R25, R50, R51) -/

/-- Reset establishes the invariant, whether or not the ROM fits. -/
theorem State.applyReset_inv (font : Vector Byte 80) (rom : List Byte) (s : State) : (s.applyReset font rom).Inv := by
  have hfont := s.wf_loadFont font
  have hsp : (0 : Byte).toNat ≤ 16 := by decide
  have hpc : (0x200 : Word).toNat ≤ 0x1002 := by decide
  have hstack (k : Fin 16) : (Vector.replicate 16 (0 : Word))[k].toNat ≤ 0x1000 := by simp
  rcases Nat.lt_or_ge 3584 rom.length with hlen | hlen
  · rw [State.applyReset_oversized font rom s hlen]
    exact ⟨hfont, hsp, hstack, hpc⟩
  · rw [State.applyReset_fits font rom s hlen]
    exact ⟨Memory.wf_writeBytes hfont (show 512 + rom.length ≤ 4096 by omega), hsp, hstack, hpc⟩

end Sys2Proof.Machine

namespace Sys2Proof

open Machine

/-- Settles O5: case split on what the step did, and for a completed instruction on who writes each item. -/
theorem stepKeepsInvariant : Obligations.StepKeepsInvariant := by
  unfold Obligations.StepKeepsInvariant
  exact fun _ _ h => h.step

/-- Settles O6: the one stop asks for SP above 16. -/
theorem stepNeverStuckUnderInvariant : Obligations.StepNeverStuckUnderInvariant := by
  unfold Obligations.StepNeverStuckUnderInvariant
  intro s h
  obtain ⟨-, hsp, -, -⟩ := h
  exact step_answers hsp

/-- Settles O7: reset establishes the invariant and every step of the run keeps it. -/
theorem reachableStatesBounded : Obligations.ReachableStatesBounded := by
  unfold Obligations.ReachableStatesBounded
  intro font rom s t n hrun
  have hinv : t.Inv := run_keeps (fun _ _ h => h.step) hrun (s.applyReset_inv font rom)
  obtain ⟨hmem, hsp, -, hpc⟩ := hinv
  exact ⟨hsp, hpc, hmem⟩

end Sys2Proof
end

section
/-! What cannot be observed: the stack entries at SP and above (R17), and the key levels where SKNP is not executed (R133).
Both rest on one commuting lemma: rewriting the stack and what the environment presents commutes with every instruction that
uses neither. -/

namespace Sys2Proof.Machine

/-- `f` after an outcome that is a next state. -/
def onNext (f : State → State) : Result → Result
  | .next s => .next (f s)
  | .fault r => .fault r
  | .refused r => .refused r

/-- The stack, the key levels listed and the count of samples rewritten, each by a function of its own. -/
def State.rewrite (stk : Vector Word 16 → Vector Word 16) (inp : List (BitVec 16) → List (BitVec 16)) (cnt : Nat → Nat)
    (s : State) : State :=
  { s with stack := stk s.stack, keyInput := inp s.keyInput, keySamples := cnt s.keySamples }

section
variable {stk : Vector Word 16 → Vector Word 16} {inp : List (BitVec 16) → List (BitVec 16)} {cnt : Nat → Nat}

/-- The rewriting touches nothing that an instruction uses: neither the stack under CALL or RET nor the keys under SKNP,
unless it is the identity there. -/
structure Unused (stk : Vector Word 16 → Vector Word 16) (inp : List (BitVec 16) → List (BitVec 16)) (cnt : Nat → Nat)
    (i : Instr) : Prop where
  ret : i = .ret → stk = id
  call : ∀ nnn, i = .callAddr nnn → stk = id
  keys : ∀ x, i = .sknpVx x → inp = id ∧ cnt = id

/-- A checked access goes on alike when what follows it does. -/
theorem orRaise_rewrite {α : Type} (s : State) (access : Except FaultRecord α) {go go' : α → Result}
    (h : ∀ a, go' a = onNext (State.rewrite stk inp cnt) (go a)) :
    (s.rewrite stk inp cnt).orRaise access go' = onNext (State.rewrite stk inp cnt) (s.orRaise access go) := by
  cases access with
  | ok a => exact h a
  | error r => rfl

theorem loadV_rewrite (s : State) (bytes : List Byte) :
    (s.rewrite stk inp cnt).loadV bytes = (s.loadV bytes).rewrite stk inp cnt := by
  simp only [State.loadV, State.rewrite]

theorem advance_rewrite (s before : State) :
    (s.rewrite stk inp cnt).advance (before.rewrite stk inp cnt) =
      onNext (State.rewrite stk inp cnt) (s.advance before) := rfl

/-- The rewriting commutes with an instruction that uses nothing of what it rewrites. -/
theorem exec_rewrite {i : Instr} (h : Unused stk inp cnt i) (s : State) :
    exec i (s.rewrite stk inp cnt) = onNext (State.rewrite stk inp cnt) (exec i s) := by
  cases i
  case ret =>
    obtain rfl := h.ret rfl
    show execRet _ = onNext _ (execRet s)
    rw [execRet, execRet, apply_ite (onNext _), apply_dite (onNext _)]
    rfl
  case callAddr nnn =>
    obtain rfl := h.call nnn rfl
    show execCallAddr nnn _ = onNext _ (execCallAddr nnn s)
    rw [execCallAddr, execCallAddr, apply_ite (onNext _), apply_dite (onNext _)]
    rfl
  case sknpVx x =>
    obtain ⟨rfl, rfl⟩ := h.keys x rfl
    show execSknpVx x _ = onNext _ (execSknpVx x s)
    rw [execSknpVx, execSknpVx, apply_ite (onNext _)]
    rfl
  case drwVxVyN x y n => exact orRaise_rewrite s (s.memRead s.i (rowCount n)) fun _ => rfl
  case ldBVx x => exact orRaise_rewrite s (s.memWrite s.i (bcdDigits (s.readV x))) fun _ => rfl
  case ldVxI x => exact orRaise_rewrite s (s.memRead s.i (loadCount x)) fun _ => by rw [loadV_rewrite, advance_rewrite]
  all_goals rfl

theorem endCycle_rewrite (s : State) : (s.rewrite stk inp cnt).endCycle = s.endCycle.rewrite stk inp cnt := by
  unfold State.endCycle State.rewrite
  split <;> rfl

theorem endStep_onNext_rewrite (o : Result) :
    endStep (onNext (State.rewrite stk inp cnt) o) = onNext (State.rewrite stk inp cnt) (endStep o) := by
  cases o with
  | next s => exact congrArg Host.Outcome.next (endCycle_rewrite s)
  | fault r => rfl
  | refused r => rfl

/-- The rewriting commutes with a step that executes no instruction that uses what it rewrites. -/
theorem step_rewrite {s : State} (h : ∀ i, Executes s i → Unused stk inp cnt i) :
    step (s.rewrite stk inp cnt) = onNext (State.rewrite stk inp cnt) (step s) := by
  have hfetch : (s.rewrite stk inp cnt).fetch = s.fetch := State.fetch_congr rfl rfl
  by_cases hs : s.fault = none
  · have hs' : (s.rewrite stk inp cnt).fault = none := hs
    cases hf : s.fetch with
    | error r => rw [step_fetch_error hs hf, step_fetch_error hs' (hfetch.trans hf)]; rfl
    | ok w =>
      cases hd : decodeWord w with
      | error e => rw [step_illegal hs hf hd, step_illegal hs' (hfetch.trans hf) hd]; rfl
      | ok i =>
        rw [step_decoded hs hf hd, step_decoded hs' (hfetch.trans hf) hd, exec_rewrite (h i ⟨hs, w, hf, hd⟩),
          endStep_onNext_rewrite]
  · rw [step_faulted hs, step_faulted (s := s.rewrite stk inp cnt) hs]; rfl

end

/-! ## CALL and RET, by the value of SP (R100, R102) -/

theorem exec_ret_underflow {s : State} (h : s.sp = 0) :
    exec .ret s = .next (raised s (.stackUnderflow s.pc (encode .ret))) := by
  rw [exec, execRet, if_pos h, State.raise_eq, raised]

theorem exec_ret_pop {s : State} {k : Fin 16} (h : s.sp.toNat = k.val + 1) : exec .ret s = .next (s.pop k) := by
  rcases execRet_cases s with ⟨h0, -⟩ | ⟨j, hj, e⟩ | ⟨h17, -⟩
  · simp [h0] at h
  · obtain rfl : j = k := Fin.ext (by omega)
    exact e
  · omega

theorem exec_callAddr_overflow {s : State} (h : s.sp.toNat = 16) (nnn : Addr) :
    exec (.callAddr nnn) s = .next (raised s (.stackOverflow s.pc (encode (.callAddr nnn)))) := by
  rcases execCallAddr_cases nnn s with ⟨-, e⟩ | ⟨j, hj, -⟩ | ⟨h17, -⟩
  · exact e
  · omega
  · omega

theorem exec_callAddr_push {s : State} {k : Fin 16} (h : s.sp.toNat = k.val) (nnn : Addr) :
    exec (.callAddr nnn) s = .next ((s.push k).setPc (addrOperand nnn)) := by
  rcases execCallAddr_cases nnn s with ⟨h16, -⟩ | ⟨j, hj, e⟩ | ⟨h17, -⟩
  · omega
  · obtain rfl : j = k := Fin.ext (by omega)
    exact e
  · omega

/-! ## Stale stack entries (R17) -/

/-- The two states' stacks may differ at SP and above, and nothing else may. -/
theorem agreeButStaleStack_iff {s t : State} : AgreeButStaleStack s t ↔
    ∃ st, t = s.rewrite (fun _ => st) id id ∧ ∀ k : Fin 16, k.val < s.sp.toNat → st[k] = s.stack[k] :=
  ⟨fun ⟨ht, hlow⟩ => ⟨t.stack, ht, hlow⟩, by rintro ⟨st, rfl, hlow⟩; exact ⟨rfl, hlow⟩⟩

theorem AgreeButStaleStack.raised {s t : State} (h : AgreeButStaleStack s t) (r : FaultRecord) :
    AgreeButStaleStack (raised s r) (raised t r) := by
  obtain ⟨st, rfl, hlow⟩ := agreeButStaleStack_iff.1 h
  exact ⟨rfl, hlow⟩

theorem AgreeButStaleStack.endCycle {s t : State} (h : AgreeButStaleStack s t) :
    AgreeButStaleStack s.endCycle t.endCycle := by
  obtain ⟨st, rfl, hlow⟩ := agreeButStaleStack_iff.1 h
  rw [endCycle_rewrite]
  refine agreeButStaleStack_iff.2 ⟨st, rfl, ?_⟩
  rwa [State.endCycle_sp, State.endCycle_stack]

/-- RET reads the entry below SP, on which the two states agree. -/
theorem AgreeButStaleStack.pop {s t : State} (h : AgreeButStaleStack s t) {k : Fin 16} (hk : s.sp.toNat = k.val + 1) :
    AgreeButStaleStack (s.pop k) (t.pop k) := by
  obtain ⟨st, rfl, hlow⟩ := agreeButStaleStack_iff.1 h
  refine agreeButStaleStack_iff.2 ⟨st, ?_, fun j hj => hlow j ?_⟩
  · show { (s.pop k).rewrite (fun _ => st) id id with pc := st[k] } = _
    rw [hlow k (by omega)]
    rfl
  · simp only [State.pop_sp] at hj; bv_omega

/-- CALL writes the entry at SP, the same in both states. -/
theorem AgreeButStaleStack.push {s t : State} (h : AgreeButStaleStack s t) {k : Fin 16} (hk : s.sp.toNat = k.val)
    (target : Word) : AgreeButStaleStack ((s.push k).setPc target) ((t.push k).setPc target) := by
  obtain ⟨st, rfl, hlow⟩ := agreeButStaleStack_iff.1 h
  refine ⟨rfl, fun j hj => ?_⟩
  show (st.set k.val s.nextPc)[j.val] = (s.stack.set k.val s.nextPc)[j.val]
  rw [Vector.getElem_set, Vector.getElem_set]
  split
  · rfl
  · refine hlow j ?_
    simp only [State.setPc_sp, State.push_sp] at hj
    bv_omega

/-- RET does not tell the two states apart. -/
theorem AgreeButStaleStack.exec_ret {s t s' : State} (h : AgreeButStaleStack s t) (he : exec .ret s = .next s') :
    ∃ t', exec .ret t = .next t' ∧ AgreeButStaleStack s' t' := by
  have hsp : t.sp = s.sp := by rw [h.1]
  have hpc : t.pc = s.pc := by rw [h.1]
  rcases exec_next_cases he with hc | ⟨r, hr, rfl⟩
  · cases hc with
    | ret k hk => exact ⟨_, exec_ret_pop (hsp ▸ hk), h.pop hk⟩
  · cases hr with
    | ret h0 => exact ⟨_, exec_ret_underflow (hsp ▸ h0), hpc ▸ h.raised _⟩

/-- CALL does not tell the two states apart. -/
theorem AgreeButStaleStack.exec_callAddr {s t s' : State} (h : AgreeButStaleStack s t) {nnn : Addr}
    (he : exec (.callAddr nnn) s = .next s') : ∃ t', exec (.callAddr nnn) t = .next t' ∧ AgreeButStaleStack s' t' := by
  have hsp : t.sp = s.sp := by rw [h.1]
  have hpc : t.pc = s.pc := by rw [h.1]
  rcases exec_next_cases he with hc | ⟨r, hr, rfl⟩
  · cases hc with
    | callAddr _ k hk => exact ⟨_, exec_callAddr_push (hsp ▸ hk) nnn, h.push hk _⟩
  · cases hr with
    | callAddr _ h16 => exact ⟨_, exec_callAddr_overflow (hsp ▸ h16) nnn, hpc ▸ h.raised _⟩

/-- The instructions but CALL and RET keep SP and the stack. -/
theorem exec_keeps_stack {s s' : State} {i : Instr} (he : exec i s = .next s') (hret : i ≠ .ret)
    (hcall : ∀ nnn, i ≠ .callAddr nnn) : s'.sp = s.sp ∧ s'.stack = s.stack := by
  rcases exec_next_cases he with hc | ⟨r, -, rfl⟩
  · constructor
    · by_contra hne
      exact (hc.sp_writer hne).elim hret fun ⟨nnn, e⟩ => hcall nnn e
    · by_contra hne
      obtain ⟨nnn, e⟩ := hc.stack_writer hne
      exact hcall nnn e
  · exact ⟨rfl, rfl⟩

/-- No instruction tells the two states apart. -/
theorem AgreeButStaleStack.exec {s t s' : State} (h : AgreeButStaleStack s t) {i : Instr}
    (he : Machine.exec i s = .next s') : ∃ t', Machine.exec i t = .next t' ∧ AgreeButStaleStack s' t' := by
  by_cases hret : i = .ret
  · subst hret
    exact h.exec_ret he
  by_cases hcall : ∃ nnn, i = .callAddr nnn
  · obtain ⟨nnn, rfl⟩ := hcall
    exact h.exec_callAddr he
  have hcall' : ∀ nnn, i ≠ .callAddr nnn := fun nnn e => hcall ⟨nnn, e⟩
  obtain ⟨st, rfl, hlow⟩ := agreeButStaleStack_iff.1 h
  obtain ⟨hsp, hstack⟩ := exec_keeps_stack he hret hcall'
  refine ⟨s'.rewrite (fun _ => st) id id, ?_, agreeButStaleStack_iff.2 ⟨st, rfl, ?_⟩⟩
  · rw [exec_rewrite ⟨fun e => absurd e hret, fun nnn e => absurd e (hcall' nnn), fun _ _ => ⟨rfl, rfl⟩⟩, he, onNext]
  · rwa [hsp, hstack]

/-- No step tells the two states apart. -/
theorem AgreeButStaleStack.step {s t s' : State} (h : AgreeButStaleStack s t) (hstep : Machine.step s = .next s') :
    ∃ t', Machine.step t = .next t' ∧ AgreeButStaleStack s' t' := by
  have hpc : t.pc = s.pc := by rw [h.1]
  have hmem : t.mem = s.mem := by rw [h.1]
  have hfault : t.fault = s.fault := by rw [h.1]
  have hfetch : t.fetch = s.fetch := State.fetch_congr hpc hmem
  rcases step_cases hstep with ⟨hf, rfl⟩ | ⟨hr, hp, rfl⟩ | ⟨hr, w, hw, hd, rfl⟩ | ⟨hr, w, i, u, hw, hd, hu, rfl⟩
  · exact ⟨t, step_faulted (hfault ▸ hf), h⟩
  · exact ⟨Machine.raised t (.addressError s.pc s.pc 2),
      by rw [step_raises_of_fetch (hfault.trans hr) (hpc ▸ hp), hpc], h.raised _⟩
  · exact ⟨Machine.raised t (.invalidOpcode s.pc w),
      by rw [step_raises_of_illegal (hfault.trans hr) (hfetch.trans hw) hd, hpc], h.raised _⟩
  · obtain ⟨v, hv, hagree⟩ := h.exec hu
    exact ⟨v.endCycle, by rw [step_decoded (hfault.trans hr) (hfetch.trans hw) hd, hv, endStep], hagree.endCycle⟩

end Sys2Proof.Machine

namespace Sys2Proof

open Machine

/-- Settles O51: replacing what the environment presents is a rewriting that leaves the stack alone. -/
theorem keysReadOnlyBySknp : Obligations.KeysReadOnlyBySknp := by
  unfold Obligations.KeysReadOnlyBySknp
  intro s input samples hno
  have hstep : step { s with keyInput := input, keySamples := samples } = _ :=
    step_rewrite (stk := id) (inp := fun _ => input) (cnt := fun _ => samples) (s := s)
      fun i hi => ⟨fun _ => rfl, fun _ _ => rfl, fun x hx => absurd (hx ▸ hi) (hno x)⟩
  rw [hstep]
  exact ⟨fun s' hs' => by rw [hs']; rfl, fun f hf => by rw [hf]; rfl⟩

/-- Settles O8: RET reads and CALL writes only entries below the new SP; every other instruction commutes with a rewriting of
the stack. -/
theorem staleStackEntriesUnobservable : Obligations.StaleStackEntriesUnobservable := by
  unfold Obligations.StaleStackEntriesUnobservable
  exact fun _ _ _ h => h.step

end Sys2Proof
end

section
/-! Proofs of the statements about memory and reset (R40 to R45, R50, R51, R53, R180). -/

namespace Sys2Proof.Machine

/-! ## Memory -/

/-- The bytes just written are the bytes read (R44). -/
theorem Memory.readBytes_writeBytes {m : Memory} {a : Nat} {bytes : List Byte} (h : m.wf)
    (ha : a + bytes.length ≤ Config.memSize) : (m.writeBytes a bytes).readBytes a bytes.length = bytes := by
  apply List.ext_getElem (Memory.readBytes_length _ _ _)
  intro k _ hk
  rw [Memory.readBytes_getElem, Memory.read_writeBytes_inside h ha hk]

/-- An address below every listed one tells a canonical memory from one that lists it. -/
theorem Memory.read_head_ne {k : Nat} {b : Byte} {rest m : Memory} (h : Memory.wf ((k, b) :: rest))
    (hm : ∀ c ∈ m, k < c.1) : Memory.read ((k, b) :: rest) k ≠ m.read k := by
  obtain ⟨-, -, hb, -⟩ := Memory.wf_cons_iff.1 h
  rwa [Memory.read_cons, if_pos rfl, Memory.read_below hm]

/-- A canonical memory is determined by what its addresses read as: the lowest listed address is the lowest one that reads
other than after reset. -/
theorem Memory.eq_of_read_eq : ∀ {m m' : Memory}, m.wf → m'.wf → (∀ a, m.read a = m'.read a) → m = m'
  | [], [], _, _, _ => rfl
  | [], (k, _) :: _, _, h', hr => absurd (hr k).symm (Memory.read_head_ne h' (by simp))
  | (k, _) :: _, [], h, _, hr => absurd (hr k) (Memory.read_head_ne h (by simp))
  | (k, b) :: rest, (k', b') :: rest', h, h', hr => by
    obtain ⟨hlt, -, -, hwf⟩ := Memory.wf_cons_iff.1 h
    obtain ⟨hlt', -, -, hwf'⟩ := Memory.wf_cons_iff.1 h'
    rcases lt_trichotomy k k' with hk | rfl | hk
    · refine absurd (hr k) (Memory.read_head_ne h (List.forall_mem_cons.2 ⟨hk, fun c hc => hk.trans (hlt' c hc)⟩))
    · have hhead : b = b' := by simpa [Memory.read_cons] using hr k
      have htail (a : Nat) : Memory.read rest a = Memory.read rest' a := by
        by_cases ha : k = a
        · subst ha
          rw [Memory.read_below hlt, Memory.read_below hlt']
        · simpa [Memory.read_cons, ha] using hr a
      rw [hhead, Memory.eq_of_read_eq hwf hwf' htail]
    · refine absurd (hr k').symm (Memory.read_head_ne h' (List.forall_mem_cons.2 ⟨hk, fun c hc => hk.trans (hlt c hc)⟩))

/-! ## The fetch (R91) -/

theorem State.fetch_of_le {s : State} (h : s.pc.toNat ≤ 4094) :
    s.fetch = .ok (wordBE (s.mem.read s.pc.toNat) (s.mem.read (s.pc.toNat + 1))) := by
  rcases s.fetch_cases with ⟨-, e⟩ | ⟨hp, -⟩
  · exact e
  · omega

/-- The word stored at PC, high byte first, is the word fetched (R45). -/
theorem State.fetch_writeBytes_bytesBE {s : State} (hwf : s.mem.wf) (hpc : s.pc.toNat ≤ 4094) (w : Word) :
    State.fetch { s with mem := s.mem.writeBytes s.pc.toNat (bytesBE w) } = .ok w := by
  have hfits : s.pc.toNat + (bytesBE w).length ≤ Config.memSize := show s.pc.toNat + 2 ≤ 4096 by omega
  have hhi := Memory.read_writeBytes_inside hwf hfits (k := 0) Nat.zero_lt_two
  have hlo := Memory.read_writeBytes_inside hwf hfits (k := 1) Nat.one_lt_two
  refine Eq.trans (State.fetch_of_le ?_) ?_
  · exact hpc
  show Except.ok (wordBE (Memory.read _ (s.pc.toNat + 0)) (Memory.read _ (s.pc.toNat + 1))) = _
  rw [hhi, hlo]
  exact congrArg Except.ok (wordBE_bytesBE w)

end Sys2Proof.Machine

namespace Sys2Proof

open Machine

/-- Settles O10: the range fits, so the write and the read are both allowed. -/
theorem writeThenReadReturnsBytes : Obligations.WriteThenReadReturnsBytes := by
  unfold Obligations.WriteThenReadReturnsBytes
  intro s addr bytes hwf hfits
  refine ⟨_, State.memWrite_ok (.inr hfits), ?_, fun a hout => Memory.read_writeBytes_outside hwf hfits hout⟩
  rw [State.memRead_ok (.inr hfits), Memory.readBytes_writeBytes hwf hfits]

/-- Settles O11: the check is of the whole range, and a range of no bytes passes it. -/
theorem accessesAreCheckedWhole : Obligations.AccessesAreCheckedWhole := by
  unfold Obligations.AccessesAreCheckedWhole
  intro s addr bytes hout
  refine ⟨fun hne => ?_, State.memRead_ok (.inl rfl), State.memWrite_ok (.inl rfl)⟩
  have hlen : bytes.length ≠ 0 := fun h0 => hne (List.length_eq_zero_iff.1 h0)
  exact ⟨State.memRead_error hlen hout, State.memWrite_error hlen hout⟩

/-- Settles O12: by induction on both lists (`Memory.eq_of_read_eq`). -/
theorem canonicalMemoriesAreEqual : Obligations.CanonicalMemoriesAreEqual := by
  unfold Obligations.CanonicalMemoriesAreEqual
  exact fun _ _ => Memory.eq_of_read_eq

/-- Settles O56: `withFetchWord` is a write of the word's two bytes at PC. -/
theorem placedWordIsFetched : Obligations.PlacedWordIsFetched := by
  unfold Obligations.PlacedWordIsFetched
  intro s w hwf hpc
  have hfits : s.pc.toNat + (bytesBE w).length ≤ Config.memSize := show s.pc.toNat + 2 ≤ 4096 by omega
  rw [State.withFetchWord_mem hpc, tableWord_toNat]
  refine ⟨State.fetch_writeBytes_bytesBE hwf hpc w, Memory.wf_writeBytes hwf hfits, fun a h0 h1 => ?_, rfl⟩
  refine Memory.read_writeBytes_outside hwf hfits ?_
  show a < s.pc.toNat ∨ s.pc.toNat + 2 ≤ a
  omega

/-! ## Reset -/

/-- Settles O1: the ROM is written above the font, which was written into a blank memory. -/
theorem resetPlacesFontRomAndZeros : Obligations.ResetPlacesFontRomAndZeros := by
  unfold Obligations.ResetPlacesFontRomAndZeros
  intro font rom s hlen
  have hwf := s.wf_loadFont font
  have hfits : 0x200 + rom.length ≤ Config.memSize := show 512 + rom.length ≤ 4096 by omega
  rw [State.applyReset_fits font rom s hlen]
  refine ⟨rfl, fun p _ => fbIndex_fbClear p, fun a => ?_, fun k => ?_, fun a hlow hout => ?_,
    Memory.wf_writeBytes hwf hfits⟩
  · -- the font
    rw [Memory.read_writeBytes_outside hwf hfits (.inl (by omega)), State.read_loadFont, dif_pos a.isLt]
    rfl
  · -- the ROM
    exact Memory.read_writeBytes_inside hwf hfits k.isLt
  · -- every other byte
    rw [Memory.read_writeBytes_outside hwf hfits hout, State.read_loadFont, dif_neg (by omega)]

/-- Settles O2: reset with a ROM that fits is the cleared state but for memory. -/
theorem resetClearsRegistersAndFault : Obligations.ResetClearsRegistersAndFault := by
  unfold Obligations.ResetClearsRegistersAndFault
  intro font rom s hlen
  rw [State.applyReset_fits font rom s hlen]
  have hv (r : Reg) : (Vector.replicate 16 (0 : Byte))[r] = 0 := by simp
  have hstack (k : Fin 16) : (Vector.replicate 16 (0 : Word))[k] = 0 := by simp
  exact ⟨hv, rfl, rfl, rfl, hstack, rfl⟩

/-- Settles O3: the refused ROM leaves the memory with the font alone, and the latch stops the step. -/
theorem oversizedRomRefusedWhole : Obligations.OversizedRomRefusedWhole := by
  unfold Obligations.OversizedRomRefusedWhole
  intro font rom s hlen
  rw [State.applyReset_oversized font rom s hlen]
  refine ⟨rfl, fun a => ?_, fun a ha => ?_, step_faulted (Option.some_ne_none _)⟩
  · show (s.cleared.loadFont font).mem.read a = _
    rw [State.read_loadFont, dif_pos a.isLt]
    rfl
  · show (s.cleared.loadFont font).mem.read a = _
    rw [State.read_loadFont, dif_neg (by omega)]

/-- Settles O4: a memory that holds the default font and zeros reads as an unlisted one, so it lists nothing. -/
theorem resetStateMeetsInvariant : Obligations.ResetStateMeetsInvariant := by
  unfold Obligations.ResetStateMeetsInvariant
  have hmem : (State.reset.cleared.loadFont defaultFont).mem = [] := by
    refine Memory.eq_of_read_eq (State.reset.wf_loadFont defaultFont) Memory.wf_nil fun a => ?_
    rw [State.read_loadFont]
    rfl
  have hreset : State.reset.applyReset defaultFont [] = State.reset := by
    rw [State.applyReset_fits defaultFont [] State.reset (by simp), hmem]
    rfl
  exact ⟨hreset ▸ State.reset.applyReset_inv defaultFont [], hreset⟩

end Sys2Proof
end

section
/-! Proofs of the statements about the cycle and the faults (R90 to R99, R151 to R161). -/

namespace Sys2Proof.Machine

/-! ## The decay (R94) -/

theorem decayed_eq_ofNat (dt : Byte) : decayed dt = BitVec.ofNat 8 (dt.toNat - 1) := by
  have := dt.isLt
  apply BitVec.eq_of_toNat_eq
  rw [decayed_toNat, BitVec.toNat_ofNat]
  omega

/-! ## The instruction a step executes -/

section
variable {s t u : State} {i j : Instr}

theorem executes_of_fetch {w : Word} (hs : s.ready) (hf : s.fetch = .ok w) (hd : decodeWord w = .ok i) : Executes s i :=
  ⟨hs, w, hf, hd⟩

theorem Executes.step_eq (h : Executes s i) : step s = endStep (exec i s) := by
  obtain ⟨hs, w, hw, hd⟩ := h
  exact step_decoded hs hw hd

/-- The fetch and the decoder are functions of the state. -/
theorem Executes.unique (hi : Executes s i) (hj : Executes s j) : i = j := by
  obtain ⟨-, w, hw, hd⟩ := hi
  obtain ⟨-, w', hw', hd'⟩ := hj
  cases hw.symm.trans hw'
  cases hd.symm.trans hd'
  rfl

/-- The instruction executed is the one whose encoding was fetched. -/
theorem Executes.encode_eq {w : Word} (h : Executes s i) (hf : s.fetch = .ok w) : encode i = w := by
  obtain ⟨-, w', hw, hd⟩ := h
  cases hf.symm.trans hw
  exact encode_of_decodeWord hd

/-- A completed instruction is followed by the decay and the refresh (R94, R95). -/
theorem Executes.step_completes (h : Executes s i) (he : exec i s = .next u) (hu : u.ready) :
    step s = .next u.decay.emitRefresh := by
  rw [h.step_eq, he, endStep, State.endCycle_ready hu]

/-- A step of a ready core raises, changing the latch alone, or completes an instruction. -/
theorem step_raises_or_completes (hs : s.ready) (h : step s = .next t) :
    (∃ r, t = raised s r) ∨
    (∃ i u, Executes s i ∧ exec i s = .next u ∧ Completes s i u ∧ u.ready ∧ t = u.decay.emitRefresh) := by
  rcases step_next_cases h with ⟨hf, -⟩ | ⟨-, -, ht⟩ | ⟨-, w, -, -, ht⟩ | ⟨i, r, -, -, ht⟩ | ⟨i, u, hi, he, hc, ht⟩
  · exact absurd hs hf
  · exact .inl ⟨_, ht⟩
  · exact .inl ⟨_, ht⟩
  · exact .inl ⟨_, ht⟩
  · have hu : u.ready := hc.fault_eq.trans hs
    exact .inr ⟨i, u, hi, he, hc, hu, ht.trans (State.endCycle_ready hu)⟩

/-- A ready core whose step leaves it ready completed an instruction. -/
theorem step_completes_of_ready (hs : s.ready) (h : step s = .next t) (ht : t.ready) :
    ∃ i u, Executes s i ∧ exec i s = .next u ∧ Completes s i u ∧ t = u.decay.emitRefresh := by
  rcases step_raises_or_completes hs h with ⟨r, rfl⟩ | ⟨i, u, hi, he, hc, -, hu⟩
  · cases ht
  · exact ⟨i, u, hi, he, hc, hu⟩

/-! ## PC and DT of a completed instruction (R99) -/

theorem State.nextPc_toNat_of_le (hpc : s.pc.toNat ≤ 4094) : s.nextPc.toNat = s.pc.toNat + 2 := by
  rw [State.nextPc_toNat]; omega

theorem State.skipPc_toNat_of_le (hpc : s.pc.toNat ≤ 4094) : s.skipPc.toNat = s.pc.toNat + 4 := by
  rw [State.skipPc_toNat]; omega

theorem State.skip_toNat_of_le (hpc : s.pc.toNat ≤ 4094) {c : Bool} {p : Prop} [Decidable p] (hc : c = true ↔ p) :
    (if c then s.skipPc else s.nextPc).toNat = if p then s.pc.toNat + 4 else s.pc.toNat + 2 := by
  by_cases hp : p
  · rw [if_pos (hc.2 hp), if_pos hp, State.skipPc_toNat_of_le hpc]
  · rw [if_neg (mt hc.1 hp), if_neg hp, State.nextPc_toNat_of_le hpc]

theorem Completes.pc_eq (hc : Completes s i t) (hpc : s.pc.toNat ≤ 4094) : t.pc.toNat = pcAfter s i := by
  cases hc
  case ret k hk => simp [pcAfter, hk]
  case jpAddr nnn | callAddr nnn _ _ => rw [State.setPc_pc, addrOperand_toNat, pcAfter]
  case seVxKk | seVxVy => exact State.skip_toNat_of_le hpc beq_iff_eq
  case sneVxKk | sneVxVy => exact State.skip_toNat_of_le hpc bne_iff_ne
  case sknpVx x _ =>
    rw [State.setPc_pc, pcAfter]
    cases s.keyDown s.v[x]
    · exact State.skipPc_toNat_of_le hpc
    · exact State.nextPc_toNat_of_le hpc
  all_goals rw [State.setPc_pc, State.nextPc_toNat_of_le hpc, pcAfter]

/-- LD DT,Vx alone writes DT (R14). -/
theorem Completes.dt_eq (hc : Completes s i t) (h : ∀ x, i ≠ .ldDtVx x) : t.dt = s.dt := by
  by_contra hne
  obtain ⟨x, hx⟩ := hc.dt_writer hne
  exact h x hx

/-! ## The records (R157) -/

/-- The record names the address and the word of the fetch, and a key number that is none (R151 to R155). -/
def FaultRecord.HoldsFetch (s : State) (w : Word) : FaultRecord → Prop
  | .stackOverflow pc w' | .stackUnderflow pc w' | .invalidOpcode pc w' => pc = s.pc ∧ w' = w
  | .keyIndexError pc w' k => pc = s.pc ∧ w' = w ∧ 15 < k.toNat
  | .addressError .. => True

theorem Raises.holdsFetch {r : FaultRecord} (hr : Raises s i r) : r.HoldsFetch s (encode i) := by
  cases hr with
  | ret | callAddr => exact ⟨rfl, rfl⟩
  | sknpVx x hx => exact ⟨rfl, rfl, hx⟩
  | drwVxVyN | ldBVx | ldVxI => trivial

theorem step_holdsFetch {w : Word} {r : FaultRecord} (hs : s.ready) (hf : s.fetch = .ok w) (h : step s = .next t)
    (ht : t.fault = some r) : r.HoldsFetch s w := by
  rcases step_next_cases h with ⟨hne, -⟩ | ⟨-, -, rfl⟩ | ⟨-, w', hw', -, rfl⟩ | ⟨i, r', hi, hr, rfl⟩ | ⟨i, u, -, -, hc, rfl⟩
  · exact absurd hs hne
  · cases ht
    trivial
  · cases ht
    cases hf.symm.trans hw'
    exact ⟨rfl, rfl⟩
  · cases ht
    exact hi.encode_eq hf ▸ hr.holdsFetch
  · rw [State.endCycle_fault, hc.fault_eq, hs] at ht
    cases ht

end

end Sys2Proof.Machine

namespace Sys2Proof

open Machine

/-- Settles O19: the fetch and the decode are given, and the end of the cycle depends on the latch. -/
theorem stepRunsDecodedInstruction : Obligations.StepRunsDecodedInstruction := by
  unfold Obligations.StepRunsDecodedInstruction
  intro s i hs hpc hd
  have hstep := (executes_of_fetch hs (State.fetch_of_le (by omega)) hd).step_eq
  refine ⟨fun t ht hready => ?_, fun t ht hfaulted => ?_, fun f hf => ?_⟩
  · rw [hstep, ht, endStep, State.endCycle_ready hready, ← decayed_eq_ofNat]
    rfl
  · rw [hstep, ht, endStep, State.endCycle_faulted hfaulted]
  · rw [hstep, hf, endStep]

/-- Settles O20: the fetch's two bytes are not both inside memory. -/
theorem fetchOutsideMemoryRaises : Obligations.FetchOutsideMemoryRaises := by
  unfold Obligations.FetchOutsideMemoryRaises
  exact fun _ => step_raises_of_fetch

/-- Settles O21: a word outside the opcode map does not decode. -/
theorem illegalWordRaisesInvalidOpcode : Obligations.IllegalWordRaisesInvalidOpcode := by
  unfold Obligations.IllegalWordRaisesInvalidOpcode
  intro s hs hpc hw
  exact step_raises_of_illegal hs (State.fetch_of_le (by omega)) (decodeWord_of_not_wellFormed hw)

/-- Settles O22: the latch is checked first. -/
theorem faultedStepDoesNothing : Obligations.FaultedStepDoesNothing := by
  unfold Obligations.FaultedStepDoesNothing
  exact fun _ => step_faulted

/-- Settles O23: a step of a ready core that completes leaves the latch empty. -/
theorem faultsArePrecise : Obligations.FaultsArePrecise := by
  unfold Obligations.FaultsArePrecise
  intro s t r hs hstep ht
  rcases step_raises_or_completes hs hstep with ⟨r', rfl⟩ | ⟨i, u, -, -, -, hu, rfl⟩
  · cases ht
    rfl
  · cases hu.symm.trans ht

/-- Settles O24: a completed step ends with the decay and the refresh, and a step that raised changed the latch alone. -/
theorem completedStepDecaysAndRefreshes : Obligations.CompletedStepDecaysAndRefreshes := by
  unfold Obligations.CompletedStepDecaysAndRefreshes
  intro s t hs hstep
  rcases step_raises_or_completes hs hstep with ⟨r, rfl⟩ | ⟨i, u, hi, he, hc, hu, rfl⟩
  · exact ⟨fun ht => (nomatch ht), fun _ => ⟨rfl, rfl, rfl⟩⟩
  · refine ⟨fun _ => ⟨?_, rfl, i, u, hi, he, decayed_toNat u.dt, hc.dt_eq⟩, fun ht => absurd hu ht⟩
    rw [State.emitRefresh_refreshCount, State.decay_refreshCount, hc.refreshCount_eq]

/-- Settles O25: PC by a lemma over the twenty instructions, DT by the decay of what LD DT,Vx alone can have written. -/
theorem pcAndTimerPerInstruction : Obligations.PcAndTimerPerInstruction := by
  unfold Obligations.PcAndTimerPerInstruction
  intro i s t hi hstep ht
  obtain ⟨j, u, hj, -, hc, rfl⟩ := step_completes_of_ready hi.1 hstep ht
  obtain rfl := hi.unique hj
  refine ⟨hc.pc_eq hi.pc_le, (decayed_toNat u.dt).trans ?_⟩
  cases hc
  case ldDtVx x => rfl
  all_goals simp

/-- Settles O26: the relation `Raises`, row by row. -/
theorem eachInstructionRaisesOnlyItsFault : Obligations.EachInstructionRaisesOnlyItsFault := by
  unfold Obligations.EachInstructionRaisesOnlyItsFault
  intro i s t r hs he ht
  rcases exec_next_cases he with hc | ⟨r', hr, rfl⟩
  · cases (hc.fault_eq.trans hs).symm.trans ht
  · cases ht
    cases hr with
    | callAddr nnn => exact .inl ⟨nnn, rfl, rfl⟩
    | ret => exact .inr (.inl ⟨rfl, rfl⟩)
    | sknpVx x => exact .inr (.inr (.inl ⟨x, rfl, rfl⟩))
    | drwVxVyN x y n => exact .inr (.inr (.inr (.inl ⟨x, y, n, rfl, rfl⟩)))
    | ldBVx x => exact .inr (.inr (.inr (.inr (.inl ⟨x, rfl, rfl⟩))))
    | ldVxI x => exact .inr (.inr (.inr (.inr (.inr ⟨x, rfl, rfl⟩))))

/-- Settles O27: the word an instruction records is its encoding, which is the word it was decoded from. -/
theorem faultRecordsHoldFetchedWord : Obligations.FaultRecordsHoldFetchedWord := by
  unfold Obligations.FaultRecordsHoldFetchedWord
  intro s t w hs hf hstep
  exact ⟨fun _ _ ht => step_holdsFetch hs hf hstep ht, fun _ _ ht => step_holdsFetch hs hf hstep ht,
    fun _ _ _ ht => step_holdsFetch hs hf hstep ht, fun _ _ ht => step_holdsFetch hs hf hstep ht⟩

/-- Settles O28: `faultCode`, constructor by constructor. -/
theorem faultCodesAsAssigned : Obligations.FaultCodesAsAssigned := by
  unfold Obligations.FaultCodesAsAssigned
  exact fun _ _ _ _ _ => ⟨rfl, rfl, rfl, rfl, rfl, rfl⟩

/-- Settles O50: by induction on the number of steps; each decays DT once, and only LD DT,Vx writes it. -/
theorem timerCountsCompletedSteps : Obligations.TimerCountsCompletedSteps := by
  unfold Obligations.TimerCountsCompletedSteps
  intro run k
  induction k with
  | zero => intro _; rfl
  | succ k ih =>
    intro h
    obtain ⟨hs, hstep, ht, hno⟩ := h k (Nat.lt_succ_self k)
    obtain ⟨i, u, hi, -, hc, hu⟩ := step_completes_of_ready hs hstep ht
    have hdt : u.dt = (run k).dt := hc.dt_eq fun x hx => hno x (hx ▸ hi)
    have hprev := ih fun j hj => h j (Nat.lt_succ_of_lt hj)
    rw [hu, State.emitRefresh_dt, State.decay_dt, decayed_toNat, hdt, hprev, Nat.sub_sub]

end Sys2Proof
end

section
/-! Proofs of the statements about CALL and RET (R100, R102), by the value of SP. -/

namespace Sys2Proof.Machine

theorem encode_callAddr (nnn : Addr) : encode (.callAddr nnn) = BitVec.ofNat 16 (0x2000 + nnn.toNat) := by
  have h : (encode (.callAddr nnn)).toNat = 0x2 * 4096 + nnn.toNat := formatNNN_toNat 0x2 nnn
  apply BitVec.eq_of_toNat_eq
  rw [h, BitVec.toNat_ofNat]
  omega

theorem State.push_stack_same (s : State) (k : Fin 16) : (s.push k).stack[k] = s.nextPc := by
  rw [State.push_stack]; simp

theorem State.push_stack_other (s : State) {j k : Fin 16} (h : j ≠ k) : (s.push k).stack[j] = s.stack[j] := by
  have h' : (k : Nat) ≠ j := fun e => h (Fin.ext e.symm)
  rw [State.push_stack]; simp [h']

theorem State.push_sp_toNat {s : State} {k : Fin 16} (h : s.sp.toNat = k.val) : (s.push k).sp.toNat = k.val + 1 := by
  rw [State.push_sp]; bv_omega

theorem State.pop_sp_eq {s : State} {k : Fin 16} (h : s.sp.toNat = k.val + 1) : (s.pop k).sp = BitVec.ofNat 8 k.val := by
  rw [State.pop_sp]; bv_omega

theorem exec_ret_stops {s : State} (h : 17 ≤ s.sp.toNat) : exec .ret s = .fault .stackPointerOutOfRange := by
  rcases execRet_cases s with ⟨h0, -⟩ | ⟨k, hk, -⟩ | ⟨-, e⟩
  · simp [h0] at h
  · omega
  · exact e

theorem exec_callAddr_stops {s : State} (h : 17 ≤ s.sp.toNat) (nnn : Addr) :
    exec (.callAddr nnn) s = .fault .stackPointerOutOfRange := by
  rcases execCallAddr_cases nnn s with ⟨h16, -⟩ | ⟨k, hk, -⟩ | ⟨-, e⟩
  · omega
  · omega
  · exact e

end Sys2Proof.Machine

namespace Sys2Proof

open Machine

/-- Settles O29: RET is a pop of the entry below SP, or raises. -/
theorem retPopsOrUnderflows : Obligations.RetPopsOrUnderflows := by
  unfold Obligations.RetPopsOrUnderflows
  refine fun s => ⟨fun k hk => ?_, exec_ret_underflow⟩
  rw [exec_ret_pop hk, ← State.pop_sp_eq hk]
  rfl

/-- Settles O31: CALL is a push into the entry at SP and a jump, or raises. -/
theorem callPushesOrOverflows : Obligations.CallPushesOrOverflows := by
  unfold Obligations.CallPushesOrOverflows
  refine fun s nnn => ⟨fun k hk => ?_, fun h16 => ?_⟩
  · refine ⟨_, exec_callAddr_push hk nnn, ?_, fun j hj => s.push_stack_other hj, State.push_sp_toNat hk, ?_, rfl,
      sameMemory_of_mem_eq rfl⟩
    · rw [State.setPc_stack, State.push_stack_same, State.nextPc_toNat]
    · rw [State.setPc_pc, addrOperand_toNat]
  · rw [exec_callAddr_overflow h16, encode_callAddr]

/-- Settles O32: neither the popped nor the pushed entry exists. -/
theorem callAndRetStopBeyondStack : Obligations.CallAndRetStopBeyondStack := by
  unfold Obligations.CallAndRetStopBeyondStack
  exact fun _ nnn h => ⟨exec_ret_stops h, exec_callAddr_stops h nnn⟩

/-- Settles O35: the RET pops the entry that the CALL pushed. -/
theorem retReturnsPastItsCall : Obligations.RetReturnsPastItsCall := by
  unfold Obligations.RetReturnsPastItsCall
  intro s t u v nnn hs hcall ht husp hustack hret
  rcases exec_next_cases hcall with hc | ⟨r, -, rfl⟩
  · cases hc with
    | callAddr _ k hk =>
      have hsp : u.sp.toNat = k.val + 1 := husp ▸ State.push_sp_toNat hk
      cases (exec_ret_pop hsp).symm.trans hret
      refine ⟨?_, ?_, rfl⟩
      · rw [State.pop_pc, hustack, State.setPc_stack, State.push_stack_same, State.nextPc_toNat]
      · rw [State.pop_sp, husp, State.setPc_sp, State.push_sp, BitVec.add_sub_cancel]
  · cases ht

end Sys2Proof
end

section
/-! Proofs of the statements about the arithmetic on I (R114, R115): each instruction writes I and advances. -/

namespace Sys2Proof.Machine

theorem exec_addIVx (x : Reg) (s : State) :
    exec (.addIVx x) s = State.advance { s with i := s.i + byteOperand s.v[x] } s := rfl

theorem exec_ldFVx (x : Reg) (s : State) : exec (.ldFVx x) s = State.advance { s with i := byteOperand s.v[x] * 5 } s := rfl

end Sys2Proof.Machine

namespace Sys2Proof

open Machine

/-- Settles O40: ADD I,Vx writes the 16-bit sum to I and advances. -/
theorem addIVxSumsInSixteenBits : Obligations.AddIVxSumsInSixteenBits := by
  unfold Obligations.AddIVxSumsInSixteenBits
  intro s x
  rw [exec_addIVx]
  obtain ⟨t, ht, hi, frame⟩ := s.setI_advance_frame (s.i + byteOperand s.v[x])
  refine ⟨t, ht, ?_, frame⟩
  rw [hi, BitVec.toNat_add, byteOperand_toNat]

/-- Settles O41: LD F,Vx writes the product to I and advances; 5 times a byte fits in 16 bits. -/
theorem ldFVxMultipliesByFive : Obligations.LdFVxMultipliesByFive := by
  unfold Obligations.LdFVxMultipliesByFive
  intro s x
  rw [exec_ldFVx]
  obtain ⟨t, ht, hi, frame⟩ := s.setI_advance_frame (byteOperand s.v[x] * 5)
  refine ⟨t, ht, ?_, frame⟩
  have hbyte := s.v[x].isLt
  rw [hi, BitVec.toNat_mul, byteOperand_toNat, show (5 : Word).toNat = 5 from rfl]
  omega

end Sys2Proof
end

section
/-! Proofs of the statements about the keys and the timer (R130 to R133). -/

namespace Sys2Proof.Machine

theorem exec_ldVxDt (x : Reg) (s : State) : exec (.ldVxDt x) s = (s.writeV x s.dt).advance s := rfl

theorem exec_ldDtVx (x : Reg) (s : State) : exec (.ldDtVx x) s = State.advance { s with dt := s.v[x] } s := rfl

theorem encode_sknpVx (x : Reg) : encode (.sknpVx x) = BitVec.ofNat 16 (0xE0A1 + x.val * 256) := by
  have h : (encode (.sknpVx x)).toNat = 0xE * 4096 + x.val * 256 + 0xA1 := formatXKK_toNat 0xE x 0xA1
  apply BitVec.eq_of_toNat_eq
  rw [h, BitVec.toNat_ofNat]
  omega

/-- PC after a SKNP whose key has the level `down` (R130). -/
theorem State.sknp_pc_toNat (s : State) (down : Bool) :
    (if down then s.nextPc else s.skipPc).toNat = (s.pc.toNat + if down = true then 2 else 4) % 65536 := by
  cases down
  · exact s.skipPc_toNat
  · exact s.nextPc_toNat

end Sys2Proof.Machine

namespace Sys2Proof

open Machine

/-- Settles O48: LD Vx,DT is a `State.writeV` and LD DT,Vx a write of DT, each with an advance. -/
theorem timerMoves : Obligations.TimerMoves := by
  unfold Obligations.TimerMoves
  intro s x
  rw [exec_ldVxDt, exec_ldDtVx]
  exact ⟨s.writeV_advance_frame x s.dt, _, State.advance_eq _ s, rfl, s.nextPc_toNat, rfl, sameMemory_of_mem_eq rfl⟩

/-- Settles O47: the level sampled is the first listed one, or the free value. -/
theorem sknpSkipsWhenKeyUp : Obligations.SknpSkipsWhenKeyUp := by
  unfold Obligations.SknpSkipsWhenKeyUp
  intro s x
  rcases execSknpVx_cases x s with ⟨hx, e⟩ | ⟨hx, e⟩
  · refine ⟨fun h => by omega, fun _ => ?_⟩
    rw [exec, e, encode_sknpVx, raised]
  · refine ⟨fun _ => ⟨_, e, fun levels rest hk => ?_, fun hk => ?_, rfl, sameMemory_of_mem_eq rfl⟩, fun h => by omega⟩
    · rw [State.setPc_pc, State.sknp_pc_toNat, State.keyDown, State.keyLevels, hk]
    · rw [State.setPc_pc, State.sknp_pc_toNat, State.keyDown, State.keyLevels, hk]

/-- Settles O49: the move, then the decay of what it left in DT. -/
theorem timerStepsDecayAfterMove : Obligations.TimerStepsDecayAfterMove := by
  unfold Obligations.TimerStepsDecayAfterMove
  refine fun s x => ⟨fun h => ?_, fun h => ?_⟩
  · exact ⟨_, h.step_completes (exec_ldVxDt x s) h.1, h.1, s.readV_writeV_same x s.dt, decayed_toNat s.dt⟩
  · exact ⟨_, h.step_completes (exec_ldDtVx x s) h.1, h.1, rfl, decayed_toNat s.v[x]⟩

end Sys2Proof
end

section
/-! Proof of the statement about DRW (R123). -/

namespace Sys2Proof.Machine

theorem collisionFlag_toNat (c : Bool) : (collisionFlag c).toNat = if c = true then 1 else 0 := by
  cases c <;> rfl

end Sys2Proof.Machine

namespace Sys2Proof

open Machine

/-- Settles O46: the rows are the `n` bytes at I, and the check of their range is the only one. -/
theorem drwDrawsSpriteAndSetsVf : Obligations.DrwDrawsSpriteAndSetsVf := by
  unfold Obligations.DrwDrawsSpriteAndSetsVf
  intro s x y n
  rcases execDrwVxVyN_cases x y n s with ⟨hin, e⟩ | ⟨⟨hn, hout⟩, e⟩
  · refine ⟨fun _ => ⟨_, s.mem.readBytes s.i.toNat n.toNat, e, Memory.readBytes_length _ _ _, fun k hk => ?_, rfl, ?_,
      fun r hr => State.readV_writeV_other _ _ hr, s.nextPc_toNat, rfl, sameMemory_of_mem_eq rfl⟩, fun hn hout => ?_⟩
    · rw [Memory.readBytes_get?, if_pos hk]
    · rw [State.setPc_v, State.readV_writeV_same, collisionFlag_toNat]
    · omega
  · exact ⟨fun hin => by omega, fun _ _ => e⟩

end Sys2Proof
end

section
/-! Proofs of the statements about LD B,Vx and LD Vx,[I] (R140, R141). -/

namespace Sys2Proof.Machine

theorem tensDigit_toNat (b : Byte) : (b / 10 % 10).toNat = b.toNat / 10 % 10 := by
  rw [BitVec.toNat_umod, BitVec.toNat_udiv]
  rfl

/-- Loading registers changes the registers alone (R141). -/
theorem State.loadV_frame (s : State) (bytes : List Byte) : s.loadV bytes = { s with v := (s.loadV bytes).v } := by
  simp only [State.loadV]

/-- Register `r` takes byte `r` of memory from `a`, if it is one of the `n` registers loaded (R141). -/
theorem State.loadV_readBytes (s : State) (a n : Nat) (r : Reg) :
    (s.loadV (s.mem.readBytes a n)).v[r] = if r.val < n then s.mem.read (a + r.val) else s.v[r] := by
  show (s.loadV _).v[r.val] = _
  rw [State.loadV_getElem, Memory.readBytes_get?]
  split <;> rfl

end Sys2Proof.Machine

namespace Sys2Proof

open Machine

/-- Settles O52: the three digits are written whole, and a write in range is read back. -/
theorem ldBVxStoresDecimalDigits : Obligations.LdBVxStoresDecimalDigits := by
  unfold Obligations.LdBVxStoresDecimalDigits
  intro s x hwf
  rcases execLdBVx_cases x s with ⟨hin, e⟩ | ⟨hout, e⟩
  · have hfits : s.i.toNat + (bcdDigits s.v[x]).length ≤ Config.memSize := hin
    have digit {k : Nat} (hk : k < 3) := Memory.read_writeBytes_inside hwf hfits (k := k) hk
    refine ⟨fun _ => ⟨_, e, ?_, ?_, ?_, fun a ha => Memory.read_writeBytes_outside hwf hfits ha, s.nextPc_toNat, rfl⟩,
      fun h => by omega⟩
    · exact (congrArg BitVec.toNat (digit (k := 0) (by decide))).trans (BitVec.toNat_udiv ..)
    · exact (congrArg BitVec.toNat (digit (k := 1) (by decide))).trans (tensDigit_toNat _)
    · exact (congrArg BitVec.toNat (digit (k := 2) (by decide))).trans (BitVec.toNat_umod ..)
  · exact ⟨fun h => by omega, fun _ => e⟩

/-- Settles O53: register `r` takes byte `r` of the list read, which has bytes 0 to `x`. -/
theorem ldVxILoadsRegisters : Obligations.LdVxILoadsRegisters := by
  unfold Obligations.LdVxILoadsRegisters
  intro s x
  rcases execLdVxI_cases x s with ⟨hin, e⟩ | ⟨hout, e⟩
  · have hload := s.loadV_readBytes s.i.toNat (x.val + 1)
    rw [State.loadV_frame] at e
    generalize (s.loadV (s.mem.readBytes s.i.toNat (x.val + 1))).v = v at e hload
    refine ⟨fun _ => ⟨_, e, fun r hr => ?_, fun r hr => ?_, s.nextPc_toNat, rfl, sameMemory_of_mem_eq rfl⟩,
      fun h => by omega⟩
    · exact (hload r).trans (if_pos (Nat.lt_succ_of_le hr))
    · exact (hload r).trans (if_neg (Nat.not_lt.2 hr))
  · exact ⟨fun h => by omega, fun _ => e⟩

end Sys2Proof
end

section
/-! Proofs of the statements about code in memory (R56) and about the end of a run (R188). -/

namespace Sys2Proof.Machine

/-- A word whose high byte is at most 2 and whose low byte is a digit is of class 0 and neither CLS nor RET (R76). -/
theorem decodeWord_of_digits {hi lo : Byte} (hhi : hi.toNat ≤ 2) (hlo : lo.toNat ≤ 9) :
    decodeWord (wordBE hi lo) = .error (.illegal (wordBE hi lo)) := by
  have hw := wordBE_toNat hi lo
  refine (illegalWordsByClass _).2 (.inl ⟨by omega, fun h => ?_, fun h => ?_⟩)
  · rw [h, show (0x00E0 : Word).toNat = 224 from rfl] at hw; omega
  · rw [h, show (0x00EE : Word).toNat = 238 from rfl] at hw; omega

/-- Jumping to where PC stands changes nothing before the end of the cycle (R101). -/
theorem State.setPc_self (s : State) : s.setPc s.pc = s := rfl

end Sys2Proof.Machine

namespace Sys2Proof

open Machine

/-- Settles O54: the digits stored are what the next fetch reads, and two digits are no instruction. -/
theorem storeOverNextInstructionIsFetched : Obligations.StoreOverNextInstructionIsFetched := by
  unfold Obligations.StoreOverNextInstructionIsFetched
  intro s t x hwf hx hi hfits hstep
  obtain ⟨u, he, hhi, hlo, -, -, hpc, hframe⟩ := (ldBVxStoresDecimalDigits s x hwf).1 hfits
  have hu : u.ready := by rw [hframe]; exact hx.1
  have htpc : u.pc.toNat = s.i.toNat := by omega
  cases (hx.step_completes he hu).symm.trans hstep
  have hbyte := s.v[x].isLt
  have hfetch : u.decay.emitRefresh.fetch = .ok (wordBE (u.mem.read s.i.toNat) (u.mem.read (s.i.toNat + 1))) :=
    htpc ▸ State.fetch_of_le (s := u.decay.emitRefresh) (by show u.pc.toNat ≤ 4094; omega)
  have hword : wordBE (u.mem.read s.i.toNat) (u.mem.read (s.i.toNat + 1)) =
      BitVec.ofNat 16 (s.v[x].toNat / 100 * 256 + s.v[x].toNat / 10 % 10) := by
    apply BitVec.eq_of_toNat_eq
    rw [wordBE_toNat, hhi, hlo, BitVec.toNat_ofNat]
    omega
  rw [← hword]
  exact step_raises_of_illegal hu hfetch (decodeWord_of_digits (by omega) (by omega))

/-- Settles O55: the jump leaves the state as it is, so the step is the end of a cycle alone. -/
theorem selfJumpChangesOnlyTimer : Obligations.SelfJumpChangesOnlyTimer := by
  unfold Obligations.SelfJumpChangesOnlyTimer
  rintro s hs ⟨nnn, hpc, hf⟩
  have hjump : exec (.jpAddr nnn) s = .next s := by rw [exec_jpAddr, ← hpc, State.setPc_self]
  have hstep := (executes_of_fetch hs hf (decodeWord_encode _)).step_completes hjump hs
  exact ⟨_, hstep, decayed_toNat s.dt, rfl, nnn, hpc, (State.fetch_congr rfl rfl).trans hf⟩

end Sys2Proof
end

section
/-! Proofs of the statements about `DrawSprite` (R121, R124, R125). The outer loop is a fold of the inner one over the rows; at
most 32 rows land on rows of the grid that are all different, so each pixel is written once. -/

namespace Sys2Proof.Machine

/-! ## What a sprite covers -/

/-- A set bit of the sprite `rows`, drawn from column `x0` and row `y`, lands on the pixel; `SpriteCovers` with coordinates that
have not been reduced to 8 bits. -/
def Covers (x0 y : Nat) (rows : List Byte) (c : Fin 64) (r : Fin 32) : Prop :=
  ∃ i j : Nat, j < 8 ∧ (x0 + j) % 64 = c.val ∧ (y + i) % 32 = r.val ∧
    ∃ row, rows[i]? = some row ∧ spriteBit row j = true

theorem spriteCovers_iff {x0 y0 : Byte} {rows : List Byte} {c : Fin 64} {r : Fin 32} :
    SpriteCovers x0 y0 rows c r ↔ Covers x0.toNat y0.toNat rows c r := Iff.rfl

/-- A set bit of one sprite row, drawn on row `cy` of the grid, lands on the pixel. -/
def RowCovers (x0 : Nat) (cy : Fin 32) (row : Byte) (c : Fin 64) (r : Fin 32) : Prop :=
  r = cy ∧ ∃ j, 0 ≤ j ∧ j < 8 ∧ (x0 + j) % 64 = c.val ∧ spriteBit row j = true

section
variable {x0 y : Nat} {row : Byte} {rows : List Byte} {c : Fin 64} {r : Fin 32}

theorem not_covers_nil : ¬ Covers x0 y [] c r := by
  rintro ⟨i, j, -, -, -, row, hrow, -⟩
  cases hrow

/-- The first row, and the rest from the row below it. -/
theorem covers_cons : Covers x0 y (row :: rows) c r ↔ RowCovers x0 (wrapRow y) row c r ∨ Covers x0 (y + 1) rows c r := by
  constructor
  · rintro ⟨i, j, hj, hc, hr, row', hrow, hbit⟩
    cases i with
    | zero =>
      cases hrow
      exact .inl ⟨Fin.ext hr.symm, j, Nat.zero_le j, hj, hc, hbit⟩
    | succ i => exact .inr ⟨i, j, hj, hc, by omega, row', hrow, hbit⟩
  · rintro (⟨rfl, j, -, hj, hc, hbit⟩ | ⟨i, j, hj, hc, hr, row', hrow, hbit⟩)
    · exact ⟨0, j, hj, hc, rfl, row, rfl, hbit⟩
    · exact ⟨i + 1, j, hj, hc, by omega, row', hrow, hbit⟩

/-- With at most 32 rows, none of the rest lands on the first one's row of the grid. -/
theorem not_covers_of_rowCovers (hlen : rows.length < 32) (h : RowCovers x0 (wrapRow y) row c r) :
    ¬ Covers x0 (y + 1) rows c r := by
  obtain ⟨rfl, -⟩ := h
  rintro ⟨i, j, -, -, hr, row', hrow, -⟩
  have hi : i < rows.length := (List.getElem?_eq_some_iff.1 hrow).1
  rw [wrapRow_val] at hr
  omega

/-- A sprite covers some pixel exactly when one of its bits is set. -/
theorem exists_covers_iff : (∃ c r, Covers x0 y rows c r) ↔ ∃ row ∈ rows, row ≠ 0 := by
  constructor
  · rintro ⟨c, r, i, j, -, -, -, row, hrow, hbit⟩
    refine ⟨row, List.mem_of_getElem? hrow, ?_⟩
    rintro rfl
    simp [spriteBit] at hbit
  · rintro ⟨row, hmem, hne⟩
    obtain ⟨i, hrow⟩ := List.getElem?_of_mem hmem
    obtain ⟨k, hk, hbit⟩ : ∃ k < 8, row.getLsbD k = true := by
      by_contra hall
      exact hne (BitVec.eq_of_getLsbD_eq fun k hk => by simpa using fun h => hall ⟨k, hk, h⟩)
    refine ⟨wrapColumn (x0 + (7 - k)), wrapRow (y + i), i, 7 - k, by omega, rfl, rfl, row, hrow, ?_⟩
    rwa [spriteBit, show 7 - (7 - k) = k by omega]

end

/-! ## The inner loop over all eight columns -/

theorem drawRow_pixel (x0 : Nat) (cy : Fin 32) (row : Byte) (b : Blit) (c : Fin 64) (r : Fin 32) :
    pixel (drawColumns x0 cy row (List.range 8) b).1 c r = true ↔ ¬ (pixel b.1 c r = true ↔ RowCovers x0 cy row c r) :=
  List.range_eq_range' ▸ drawColumns_pixel x0 cy row c r 8 0 b rfl

theorem drawRow_collision (x0 : Nat) (cy : Fin 32) (row : Byte) (b : Blit) :
    (drawColumns x0 cy row (List.range 8) b).2 = true ↔
      b.2 = true ∨ ∃ c r, pixel b.1 c r = true ∧ RowCovers x0 cy row c r := by
  rw [List.range_eq_range', drawColumns_collision x0 cy row 8 0 b rfl]
  refine or_congr_right ⟨fun ⟨j, h0, hj, hbit, hpix⟩ => ⟨_, _, hpix, rfl, j, h0, hj, rfl, hbit⟩, ?_⟩
  rintro ⟨c, r, hpix, rfl, j, h0, hj, hc, hbit⟩
  obtain rfl : wrapColumn (x0 + j) = c := Fin.ext hc
  exact ⟨j, h0, hj, hbit, hpix⟩

/-! ## The outer loop -/

/-- A pixel is inverted exactly when the sprite covers it. -/
theorem drawRows_pixel (x0 : Nat) (c : Fin 64) (r : Fin 32) : ∀ (rows : List Byte) (y : Nat) (b : Blit), rows.length ≤ 32 →
    (pixel (drawRows x0 y rows b).1 c r = true ↔ ¬ (pixel b.1 c r = true ↔ Covers x0 y rows c r))
  | [], y, b, _ => by simp [drawRows, not_covers_nil]
  | row :: rows, y, b, hlen => by
    have hlen' : rows.length < 32 := hlen
    have hexcl := not_covers_of_rowCovers (x0 := x0) (y := y) (row := row) (c := c) (r := r) hlen'
    rw [drawRows, drawRows_pixel x0 c r rows (y + 1) _ hlen'.le, drawRow_pixel, covers_cons]
    tauto

/-- A collision is reported exactly when one was before or the sprite covers a lit pixel. -/
theorem drawRows_collision (x0 : Nat) : ∀ (rows : List Byte) (y : Nat) (b : Blit), rows.length ≤ 32 →
    ((drawRows x0 y rows b).2 = true ↔ b.2 = true ∨ ∃ c r, pixel b.1 c r = true ∧ Covers x0 y rows c r)
  | [], y, b, _ => by simp [drawRows, not_covers_nil]
  | row :: rows, y, b, hlen => by
    have hlen' : rows.length < 32 := hlen
    -- where the rest of the sprite lands, the first row has changed nothing
    have hrest (c : Fin 64) (r : Fin 32) (h : Covers x0 (y + 1) rows c r) :
        pixel (drawColumns x0 (wrapRow y) row (List.range 8) b).1 c r = true ↔ pixel b.1 c r = true := by
      have hno : ¬ RowCovers x0 (wrapRow y) row c r := fun h' => not_covers_of_rowCovers hlen' h' h
      rw [drawRow_pixel]
      tauto
    have hlit : (∃ c r, pixel (drawColumns x0 (wrapRow y) row (List.range 8) b).1 c r = true ∧ Covers x0 (y + 1) rows c r) ↔
        ∃ c r, pixel b.1 c r = true ∧ Covers x0 (y + 1) rows c r :=
      exists_congr fun c => exists_congr fun r => and_congr_left (hrest c r)
    rw [drawRows, drawRows_collision x0 rows (y + 1) _ hlen'.le, drawRow_collision, hlit]
    simp only [covers_cons, and_or_left, exists_or, or_assoc]

theorem drawSprite_pixel {fb : Framebuffer} {x0 y0 : Byte} {rows : List Byte} (h : rows.length ≤ 15) (c : Fin 64)
    (r : Fin 32) : pixel (drawSprite fb x0 y0 rows).1 c r = true ↔
      ¬ (pixel fb c r = true ↔ SpriteCovers x0 y0 rows c r) := by
  rw [spriteCovers_iff]
  exact drawRows_pixel x0.toNat c r rows y0.toNat (fb, false) (by omega)

theorem drawSprite_collision {fb : Framebuffer} {x0 y0 : Byte} {rows : List Byte} (h : rows.length ≤ 15) :
    (drawSprite fb x0 y0 rows).2 = true ↔ ∃ c r, pixel fb c r = true ∧ SpriteCovers x0 y0 rows c r := by
  simp only [spriteCovers_iff]
  exact (drawRows_collision x0.toNat rows y0.toNat (fb, false) (by omega)).trans (or_iff_right Bool.false_ne_true)

/-! ## Wrapping start coordinates (R125) -/

theorem drawColumns_congr {x0 x1 : Nat} (hx : x0 % 64 = x1 % 64) (cy : Fin 32) (row : Byte) :
    ∀ (js : List Nat) (b : Blit), drawColumns x0 cy row js b = drawColumns x1 cy row js b
  | [], _ => rfl
  | j :: js, b => by
    have hcol : wrapColumn (x0 + j) = wrapColumn (x1 + j) := Fin.ext (Nat.ModEq.add_right j hx)
    rw [drawColumns, drawColumns, hcol, drawColumns_congr hx cy row js]

theorem drawRows_congr {x0 x1 : Nat} (hx : x0 % 64 = x1 % 64) :
    ∀ (rows : List Byte) {y0 y1 : Nat} (b : Blit), y0 % 32 = y1 % 32 → drawRows x0 y0 rows b = drawRows x1 y1 rows b
  | [], _, _, _, _ => rfl
  | row :: rows, y0, y1, b, hy => by
    have hrow : wrapRow y0 = wrapRow y1 := Fin.ext hy
    rw [drawRows, drawRows, hrow, drawColumns_congr hx, drawRows_congr hx rows _ (Nat.ModEq.add_right 1 hy)]

end Sys2Proof.Machine

namespace Sys2Proof

open Machine

/-- Settles O43: by induction on the rows, each of which lands on a row of the grid of its own. -/
theorem drawSpriteXorsWrappedSprite : Obligations.DrawSpriteXorsWrappedSprite := by
  unfold Obligations.DrawSpriteXorsWrappedSprite
  exact fun _ _ _ _ h => ⟨drawSprite_pixel h, drawSprite_collision h⟩

/-- Settles O44: a pixel inverted twice is as it was, and the first draw on a blank grid lights what the sprite covers. -/
theorem drawingTwiceRestoresGrid : Obligations.DrawingTwiceRestoresGrid := by
  unfold Obligations.DrawingTwiceRestoresGrid
  intro fb x0 y0 rows h
  constructor
  · refine framebuffer_ext fun c r => Bool.eq_iff_iff.2 ?_
    rw [drawSprite_pixel h, drawSprite_pixel h]
    tauto
  · have hlit (c : Fin 64) (r : Fin 32) :
        pixel (drawSprite fbClear x0 y0 rows).1 c r = true ↔ SpriteCovers x0 y0 rows c r := by
      rw [drawSprite_pixel h, pixel_fbClear]
      simp
    rw [drawSprite_collision h]
    simp only [hlit, and_self, spriteCovers_iff]
    exact exists_covers_iff

/-- Settles O45: the loops use the coordinates modulo 64 and 32 only. -/
theorem startCoordinatesWrap : Obligations.StartCoordinatesWrap := by
  unfold Obligations.StartCoordinatesWrap
  intro fb x0 y0 rows
  have hx : (x0 + 64).toNat % 64 = x0.toNat % 64 := by bv_omega
  have hy : (y0 + 32).toNat % 32 = y0.toNat % 32 := by bv_omega
  exact ⟨drawRows_congr hx rows _ rfl, drawRows_congr rfl rows _ hy⟩

end Sys2Proof
end
